-- ==== Sys2Proof/Word.lean ====
section
/-! DEFINITION. The one machine word of PDB-CODEC: the byte (00_scope.md R11, "a byte is an integer in 0 to 255",
bits numbered 7 down to 0). Everything wider is a list of bytes or an integer. -/

namespace Sys2Proof

/-- The addressable unit of a frame buffer (00_scope.md R11, 20_memory.md R40). -/
abbrev Byte := BitVec 8

end Sys2Proof
end

