-- ==== Sys2Proof/Config.lean ====
section
/-! DEFINITION. The constants of 00_scope.md R9 and R10, and the field lengths and offsets of 70_reset_and_hazards.md
R224. All are hardwired and read-only (10_state.md R27).
UNVERIFIED (log 14): the source's literals are unaudited, so each stands under one name here, once (R224). -/

namespace Sys2Proof

/-- The closed set of body variants; the constructors are the variant ids of 00_scope.md R14 and
42_registry_dispatch.md R125. -/
inductive Variant where
  | move
  | rgb
  | data
  | loc
  deriving DecidableEq, Repr

namespace Config

/-! ## Literals: each number of the source stands here once (70_reset_and_hazards.md R224) -/

/-- The value `version` should equal (00_scope.md R9). -/
abbrev protocolVersion : Int := 1
/-- Size of the closed tag enumeration, and so of the registry and the frame table (R9). -/
abbrev nTags : Nat := 4
/-- Bytes of the type tag (44_payload.md R160). -/
abbrev lenTag : Nat := 1
/-- A type tag as it travels: `lenTag` bytes (44_payload.md R160, 30_encoding.md R67, R74). -/
abbrev Tag : Type := BitVec (8 * lenTag)
/-- `CMD_MOVE_RAW` (R9). -/
abbrev tagCmdMoveRaw : Tag := 0
/-- `CMD_RGB_LED` (R9). -/
abbrev tagCmdRgbLed : Tag := 1
/-- `LH2_RAW_DATA` (R9). -/
abbrev tagLh2RawData : Tag := 2
/-- `LH2_LOCATION` (R9). -/
abbrev tagLh2Location : Tag := 3
/-- Sub-records in one Lh2RawData, "never more, never fewer" (R9). -/
abbrev nLoc : Nat := 4
/-- Bytes of the header's `destination` (41_header.md R110). -/
abbrev lenDestination : Nat := 8
/-- Bytes of the header's `source` (R110). -/
abbrev lenSource : Nat := 8
/-- Bytes of the header's `swarm_id` (R110). -/
abbrev lenSwarmId : Nat := 2
/-- Bytes of the header's `version` (R110). -/
abbrev lenVersion : Nat := 1
/-- Bytes of each MoveRaw field (43_body_variants.md R135). -/
abbrev lenMoveField : Nat := 1
/-- Bytes of each RgbLed field (43_body_variants.md R137). -/
abbrev lenRgbField : Nat := 1
/-- Bytes of a location record's `bits` (43_body_variants.md R139). -/
abbrev lenBits : Nat := 8
/-- Bytes of a location record's `polynomial_index` (R139). -/
abbrev lenPolynomialIndex : Nat := 1
/-- Bytes of a location record's `offset` (R139). -/
abbrev lenOffset : Nat := 1
/-- Slots of a MoveRaw body (10_state.md R22). -/
abbrev slotsMove : Nat := 4
/-- Slots of an RgbLed body (R22). -/
abbrev slotsRgb : Nat := 3
/-- Slots of a location record (R22). -/
abbrev slotsLoc : Nat := 3
/-- Largest field length FCONV accepts (00_scope.md R10). DESIGN CHOICE of the spec, D6, log 8. -/
abbrev maxFieldLen : Nat := 8

/-! ## Sums and products of the literals, by the arithmetic of 70_reset_and_hazards.md R224 -/

/-- Offset of `destination` in a header (20_memory.md R48). -/
abbrev offDestination : Nat := 0
/-- Offset of `source`: each header field starts where the one before it ends (R48, R224). -/
abbrev offSource : Nat := offDestination + lenDestination
/-- Offset of `swarm_id` (R48, R224). -/
abbrev offSwarmId : Nat := offSource + lenSource
/-- Offset of `version` (R48, R224). -/
abbrev offVersion : Nat := offSwarmId + lenSwarmId
/-- Bytes of the header, 19 (00_scope.md R9, R224). -/
abbrev headerLen : Nat := lenDestination + lenSource + lenSwarmId + lenVersion
/-- Byte offset of the type tag, 19 (R9, R224). -/
abbrev tagOffset : Nat := offVersion + lenVersion
/-- Byte offset of the first body byte, 20 (R9, R224). -/
abbrev bodyOffset : Nat := tagOffset + lenTag
/-- A buffer below 20 bytes is `TruncatedBuffer` before anything is read (R9, 44_payload.md R163 step 1). -/
abbrev minDecodeLen : Nat := bodyOffset
/-- Offset of `bits` in a location record (43_body_variants.md R139). -/
abbrev offBits : Nat := 0
/-- Offset of `polynomial_index` in a location record (R139). -/
abbrev offPolynomialIndex : Nat := offBits + lenBits
/-- Offset of `offset` in a location record (R139). -/
abbrev offOffset : Nat := offPolynomialIndex + lenPolynomialIndex
/-- MoveRaw body width, 4 bytes (R9, R224). -/
abbrev wMove : Nat := slotsMove * lenMoveField
/-- RgbLed body width, 3 bytes (R9, R224). -/
abbrev wRgb : Nat := slotsRgb * lenRgbField
/-- Lh2RawLocation width, 10 bytes (R9, R224). -/
abbrev wLoc : Nat := lenBits + lenPolynomialIndex + lenOffset
/-- Lh2RawData body width, 40 bytes (R9, R224). -/
abbrev wData : Nat := nLoc * wLoc
/-- Body field slots of the payload record, 12: the field count of Lh2RawData (R10). -/
abbrev nSlots : Nat := nLoc * slotsLoc
/-- Longest frame, `20 + W_DATA` = 60 (R10). -/
abbrev maxFrameLen : Nat := bodyOffset + wData
/-- Shortest frame, `20 + W_RGB` = 23 (R10). -/
abbrev minFrameLen : Nat := bodyOffset + wRgb
/-- `REGISTRY_TAG3`: width and decoder of the registry row for tag 3 (R10). DESIGN CHOICE of the spec, D11, log 7:
the source names tag 3 and gives it no body. -/
abbrev registryTag3 : Nat × Variant := (wLoc, .loc)

end Config

end Sys2Proof
end

