-- ==== Sys2Proof/Syntax.lean ====
section
/-! DEFINITION. The whole syntax: the operand records of 10_state.md R21 to R23, the raw frame fields of
30_encoding.md R62 to R66, `Instr` with one constructor per row of `opcode_table.json` (30_encoding.md R76), and
the requests that carry instructions to the block (30_encoding.md R73, R74). -/

namespace Sys2Proof

/-- A field's byte order (10_state.md R21). -/
inductive Endian where
  | big
  | little
  deriving DecidableEq, Repr

/-- The debug labels of the descriptor tables (41_header.md R110, 43_body_variants.md R135, R137, R139, R141) and the
tag's `type` (44_payload.md R160). They take no part in any computation (D19, log 17). -/
inductive Label where
  | destination
  | source
  | swarmId
  | version
  | type
  | leftX
  | leftY
  | rightX
  | rightY
  | red
  | green
  | blue
  | bits
  | polynomialIndex
  | offset
  deriving DecidableEq, Repr

/-- A field descriptor without its value: one row of a hardwired descriptor list (10_state.md R27, 40_field_converter.md
R100). -/
structure FieldShape where
  name : Label
  length : Nat
  endianness : Endian
  signed : Bool
  deriving DecidableEq, Repr

/-- The field descriptor record `FD` (10_state.md R21). Its value may be unrepresentable: only encoding checks it. -/
structure FieldDescriptor where
  name : Label
  value : Int
  length : Nat
  endianness : Endian
  signed : Bool
  deriving DecidableEq, Repr

/-- The header record `H` (10_state.md R23); each slot is an integer without a width. -/
structure Header where
  destination : Int
  source : Int
  swarmId : Int
  version : Int
  deriving DecidableEq, Repr

/-- MoveRaw, slots `x[0]` to `x[3]` (10_state.md R22). -/
structure MoveRaw where
  leftX : Int
  leftY : Int
  rightX : Int
  rightY : Int
  deriving DecidableEq, Repr

/-- RgbLed, slots `x[0]` to `x[2]` (10_state.md R22). -/
structure RgbLed where
  red : Int
  green : Int
  blue : Int
  deriving DecidableEq, Repr

/-- Lh2RawLocation, slots `x[0]` to `x[2]` (10_state.md R22). -/
structure Lh2RawLocation where
  bits : Int
  polynomialIndex : Int
  offset : Int
  deriving DecidableEq, Repr

/-- Lh2RawData: precisely `N_LOC` sub-records, "never more, never fewer" (10_state.md R32, 43_body_variants.md R147). -/
structure Lh2RawData where
  locs : Vector Lh2RawLocation Config.nLoc
  deriving DecidableEq, Repr

/-- The body of a payload, one constructor per variant, so that a body of the wrong shape cannot be built
(10_state.md R22). -/
inductive Body where
  | move (m : MoveRaw)
  | rgb (c : RgbLed)
  | data (d : Lh2RawData)
  | loc (l : Lh2RawLocation)
  deriving DecidableEq, Repr

/-- The payload record `PR` (10_state.md R22). Its slot `typ` is decided by the body's constructor. -/
structure Payload where
  header : Header
  body : Body
  deriving DecidableEq, Repr

/-- The three error kinds (60_exceptions.md R180); a kind carries nothing (R185). -/
inductive ErrorKind where
  | truncatedBuffer
  | unsupportedPayloadType
  | fieldOverflow
  deriving DecidableEq, Repr

/-- The header fields of a frame as they lie on the wire (30_encoding.md R62, offsets 0 to 18). -/
structure FrameHeader where
  destination : BitVec (8 * Config.lenDestination)
  source : BitVec (8 * Config.lenSource)
  swarmId : BitVec (8 * Config.lenSwarmId)
  version : BitVec (8 * Config.lenVersion)
  deriving DecidableEq, Repr

/-- The fields of one location record as they lie on the wire (30_encoding.md R65, R66). -/
structure FrameLocation where
  bits : BitVec (8 * Config.lenBits)
  polynomialIndex : BitVec (8 * Config.lenPolynomialIndex)
  offset : BitVec (8 * Config.lenOffset)
  deriving DecidableEq, Repr

/-- The instructions: the four frame formats, then the sixteen operations in the order of their select codes
(30_encoding.md R63 to R66, R72). Operations carry their operands (R73); frames carry their field patterns. `fData` names
the four header fields one by one and carries its `N_LOC` records as one operand (R65). -/
inductive Instr where
  | fMove (h : FrameHeader) (leftX leftY rightX rightY : BitVec (8 * Config.lenMoveField))
  | fRgb (h : FrameHeader) (red green blue : BitVec (8 * Config.lenRgbField))
  | fData (destination : BitVec (8 * Config.lenDestination)) (source : BitVec (8 * Config.lenSource))
    (swarmId : BitVec (8 * Config.lenSwarmId)) (version : BitVec (8 * Config.lenVersion))
    (locs : Vector FrameLocation Config.nLoc)
  | fLoc (h : FrameHeader) (l : FrameLocation)
  | fenc (value : Int) (length : Nat) (endianness : Endian) (signed : Bool)
  | fdec (bytes : List Byte) (length : Nat) (endianness : Endian) (signed : Bool)
  | hfields (h : Header)
  | henc (h : Header)
  | hdec (buf : List Byte)
  | lookup (tag : Config.Tag)
  | moveFields (m : MoveRaw)
  | rgbFields (c : RgbLed)
  | locFields (l : Lh2RawLocation)
  | dataFields (d : Lh2RawData)
  | moveDec (buf : List Byte)
  | rgbDec (buf : List Byte)
  | locDec (buf : List Byte)
  | dataDec (buf : List Byte)
  | penc (h : Header) (typ : Config.Tag) (x : List Int)
  | pdec (buf : List Byte)
  deriving DecidableEq, Repr

/-- The operand ports of an operation request (30_encoding.md R73, R74). `value` is the `VALUE_W`-bit bus, held over
the integers, and `buf` is the byte sequence port with its count (log 12). A port an operation does not name is
ignored (log 18). -/
structure Ports where
  op : BitVec 4
  value : Int := 0
  length : BitVec 4 := 0
  endian : BitVec 1 := 0
  sgn : BitVec 1 := 0
  buf : List Byte := []
  h : Header := ⟨0, 0, 0, 0⟩
  tag : Config.Tag := 0
  typ : Config.Tag := 0
  x : List Int := []
  deriving DecidableEq, Repr

/-- What the host presents for one transaction: an operation with its operands (30_encoding.md R73), or a raw inbound
buffer that starts at a frame's first byte (44_payload.md, "transport hands the core a raw byte buffer"; DEDUCED, log 4). -/
inductive Request where
  | op (p : Ports)
  | frame (buf : List Byte)
  deriving DecidableEq, Repr

end Sys2Proof
end

