-- ==== Sys2Proof/WellFormed.lean ====
section
/-! DEFINITION. The operand domain of the operations: which requests the block has a meaning for
(60_exceptions.md R192). A request outside it is refused by name and is no error kind. -/

namespace Sys2Proof

/-- The three ways a request leaves every rule's domain (60_exceptions.md R192, D25). -/
inductive DomainViolation where
  /-- A field `length` of 0 or above 8 (40_field_converter.md R90). -/
  | fieldLength
  /-- An `FDEC` byte vector whose size is not `length` (40_field_converter.md R92). -/
  | byteCount
  /-- A body slot list whose size is not the `n` of its `typ` (10_state.md R22). -/
  | slotCount
  deriving DecidableEq, Repr

/-- `1 <= L <= MAX_FIELD_LEN` (40_field_converter.md R90). -/
def lengthOk (length : Nat) : Bool := decide (1 ≤ length ∧ length ≤ Config.maxFieldLen)

/-- The slot count `n` of a variant (10_state.md R22). -/
def variantSlots : Variant → Nat
  | .move => Config.slotsMove
  | .rgb => Config.slotsRgb
  | .data => Config.nSlots
  | .loc => Config.slotsLoc

/-- The slot count `n` of a tag (10_state.md R22); an invalid tag has none. -/
def slotCount (typ : Config.Tag) : Option Nat :=
  if typ = Config.tagCmdMoveRaw then some (variantSlots .move)
  else if typ = Config.tagCmdRgbLed then some (variantSlots .rgb)
  else if typ = Config.tagLh2RawData then some (variantSlots .data)
  else if typ = Config.tagLh2Location then some (variantSlots Config.registryTag3.2)
  else none

/-- `PENC` is given exactly the slots its tag selects; with an invalid tag the slots are not looked at
(70_reset_and_hazards.md R212, 60_exceptions.md R187; DEDUCED for the invalid tag, log 11). -/
def slotsOk (typ : Config.Tag) (x : List Int) : Bool :=
  match slotCount typ with
  | some n => x.length == n
  | none => true

/-- The first violation of the operand domain, if there is one. Operations whose operands are records or buffers, and
frames, have none: their shape is enforced by typing. -/
def Instr.violation : Instr → Option DomainViolation
  | .fenc _ length _ _ => if lengthOk length then none else some .fieldLength
  | .fdec bytes length _ _ =>
    if lengthOk length then (if bytes.length = length then none else some .byteCount) else some .fieldLength
  | .penc _ typ x => if slotsOk typ x then none else some .slotCount
  | .fMove _ _ _ _ _ => none
  | .fRgb _ _ _ _ => none
  | .fData _ _ _ _ _ => none
  | .fLoc _ _ => none
  | .hfields _ => none
  | .henc _ => none
  | .hdec _ => none
  | .lookup _ => none
  | .moveFields _ => none
  | .rgbFields _ => none
  | .locFields _ => none
  | .dataFields _ => none
  | .moveDec _ => none
  | .rgbDec _ => none
  | .locDec _ => none
  | .dataDec _ => none
  | .pdec _ => none

/-- An instruction inside the operand domain. -/
abbrev Instr.WellFormed (i : Instr) : Prop := i.violation = none

end Sys2Proof
end

