-- ==== Sys2Proof/Decode.lean ====
section
/-! DEFINITION. Decoding of requests and frames, and the encoder, both written from 30_encoding.md.
An operation is read from its 4-bit select and its ports (R72 to R74); a frame is read from its bytes by the tag at
offset 19 (R61 to R67). Decoding is total: whatever it does not read as an instruction it rejects by name. -/

namespace Sys2Proof

/-- Why decoding gives no instruction: a frame that cannot be read, which the block reports as one of its error kinds
(44_payload.md R163), or a request outside the operand domain, which it refuses (60_exceptions.md R192). -/
inductive Reject where
  | frameError (k : ErrorKind)
  | outOfDomain (d : DomainViolation)
  deriving DecidableEq, Repr

/-- The sixteen operations (30_encoding.md R72). -/
inductive Op where
  | fenc
  | fdec
  | hfields
  | henc
  | hdec
  | lookup
  | moveFields
  | rgbFields
  | locFields
  | dataFields
  | moveDec
  | rgbDec
  | locDec
  | dataDec
  | penc
  | pdec
  deriving DecidableEq, Repr

/-- The 4-bit select of each operation (30_encoding.md R72, D4). -/
def Op.select : Op → BitVec 4
  | .fenc => 0x0
  | .fdec => 0x1
  | .hfields => 0x2
  | .henc => 0x3
  | .hdec => 0x4
  | .lookup => 0x5
  | .moveFields => 0x6
  | .rgbFields => 0x7
  | .locFields => 0x8
  | .dataFields => 0x9
  | .moveDec => 0xA
  | .rgbDec => 0xB
  | .locDec => 0xC
  | .dataDec => 0xD
  | .penc => 0xE
  | .pdec => 0xF

/-- The operations in the order of their select codes (30_encoding.md R72). -/
def opTable : Vector Op 16 :=
  #v[.fenc, .fdec, .hfields, .henc, .hdec, .lookup, .moveFields, .rgbFields, .locFields, .dataFields,
    .moveDec, .rgbDec, .locDec, .dataDec, .penc, .pdec]

/-- The operation a select names: all sixteen codes are assigned, none falls through (30_encoding.md R72). -/
def opOfSelect (sel : BitVec 4) : Op := opTable[sel.toNat]'sel.isLt

/-- Port `end`: 0 = big, 1 = little (30_encoding.md R74). -/
def endianOfPort (b : BitVec 1) : Endian := if b = 0 then .big else .little

/-- The port coding of a byte order (30_encoding.md R74). -/
def Endian.port : Endian → BitVec 1
  | .big => 0
  | .little => 1

/-- Port `sgn`: 0 = unsigned, 1 = signed (30_encoding.md R74). -/
def signedOfPort (b : BitVec 1) : Bool := decide (b = 1)

/-- The port coding of a signedness (30_encoding.md R74). -/
def signedPort (signed : Bool) : BitVec 1 := if signed then 1 else 0

/-- The MoveRaw record a slot list stands for (10_state.md R22). -/
def moveOfSlots : List Int → Option MoveRaw
  | [a, b, c, d] => some ⟨a, b, c, d⟩
  | _ => none

/-- The RgbLed record a slot list stands for (10_state.md R22). -/
def rgbOfSlots : List Int → Option RgbLed
  | [a, b, c] => some ⟨a, b, c⟩
  | _ => none

/-- The Lh2RawLocation record a slot list stands for (10_state.md R22). -/
def locOfSlots : List Int → Option Lh2RawLocation
  | [a, b, c] => some ⟨a, b, c⟩
  | _ => none

/-- `n` items, the `k`-th from `k`: a fixed number of like things, such as the `N_LOC` records of a Lh2RawData body. -/
def tabulate {α : Type} (n : Nat) (f : Nat → α) : Vector α n := ⟨⟨(List.range n).map f⟩, by simp⟩

/-- The images of a fixed number of like things, in order. -/
def mapEach {α β : Type} {n : Nat} (f : α → β) (v : Vector α n) : Vector β n := ⟨⟨v.toList.map f⟩, by simp⟩

/-- Record `k` of a Lh2RawData slot list: `x[3k]`, `x[3k+1]`, `x[3k+2]` (10_state.md R22). -/
def slotRecord (x : List Int) (k : Nat) : Lh2RawLocation :=
  ⟨x.getD (Config.slotsLoc * k) 0, x.getD (Config.slotsLoc * k + 1) 0, x.getD (Config.slotsLoc * k + 2) 0⟩

/-- The Lh2RawData record a slot list stands for (10_state.md R22). -/
def dataOfSlots (x : List Int) : Option Lh2RawData :=
  if x.length = Config.nSlots then some ⟨tabulate Config.nLoc (slotRecord x)⟩ else none

/-- The instruction a slot list gives, or the slot count violation (60_exceptions.md R192). -/
def withSlots {α : Type} (slots : Option α) (mk : α → Instr) : Except Reject Instr :=
  match slots with
  | some a => .ok (mk a)
  | none => .error (.outOfDomain .slotCount)

/-- An instruction if it lies in the operand domain, else the violation by name (60_exceptions.md R192). -/
def checked (i : Instr) : Except Reject Instr :=
  match i.violation with
  | none => .ok i
  | some d => .error (.outOfDomain d)

/-- Read an operation request: select, then the operands of that operation's row (30_encoding.md R72, R73). -/
def decodeOp (p : Ports) : Except Reject Instr :=
  match opOfSelect p.op with
  | .fenc => checked (.fenc p.value p.length.toNat (endianOfPort p.endian) (signedOfPort p.sgn))
  | .fdec => checked (.fdec p.buf p.length.toNat (endianOfPort p.endian) (signedOfPort p.sgn))
  | .hfields => .ok (.hfields p.h)
  | .henc => .ok (.henc p.h)
  | .hdec => .ok (.hdec p.buf)
  | .lookup => .ok (.lookup p.tag)
  | .moveFields => withSlots (moveOfSlots p.x) .moveFields
  | .rgbFields => withSlots (rgbOfSlots p.x) .rgbFields
  | .locFields => withSlots (locOfSlots p.x) .locFields
  | .dataFields => withSlots (dataOfSlots p.x) .dataFields
  | .moveDec => .ok (.moveDec p.buf)
  | .rgbDec => .ok (.rgbDec p.buf)
  | .locDec => .ok (.locDec p.buf)
  | .dataDec => .ok (.dataDec p.buf)
  | .penc => checked (.penc p.h p.typ p.x)
  | .pdec => .ok (.pdec p.buf)

/-- One FRAME row of `opcode_table.json`: the tag byte's match and mask, the format's body variant and the frame's
length in bytes (30_encoding.md R67, R76). -/
structure FrameRow where
  matchByte : Config.Tag
  mask : Config.Tag
  format : Variant
  frameLength : Nat
  deriving DecidableEq, Repr

/-- The FRAME rows, one for each tag: tag byte, and length `20 + w` (30_encoding.md R67, R68, R76). -/
def frameTable : Vector FrameRow Config.nTags :=
  #v[⟨Config.tagCmdMoveRaw, BitVec.allOnes _, .move, Config.bodyOffset + Config.wMove⟩,
    ⟨Config.tagCmdRgbLed, BitVec.allOnes _, .rgb, Config.bodyOffset + Config.wRgb⟩,
    ⟨Config.tagLh2RawData, BitVec.allOnes _, .data, Config.bodyOffset + Config.wData⟩,
    ⟨Config.tagLh2Location, BitVec.allOnes _, Config.registryTag3.2, Config.bodyOffset + Config.registryTag3.1⟩]

/-- The FRAME rows as a list. -/
def frameRows : List FrameRow := frameTable.toList

/-- The row a tag byte matches; none for `0x04` to `0xFF` (30_encoding.md R76). -/
def frameRowOf (tag : Config.Tag) : Option FrameRow :=
  frameRows.find? fun r => tag &&& r.mask == r.matchByte

/-- The byte at an offset of a buffer; callers have checked the length (20_memory.md R50). -/
def byteAt (buf : List Byte) (a : Nat) : Byte := buf.getD a 0

/-- The field of `n` bytes at byte offset `a`, most significant byte first (30_encoding.md R61). -/
def fieldBits (buf : List Byte) (a : Nat) : (n : Nat) → BitVec (8 * n)
  | 0 => 0
  | n + 1 => fieldBits buf a n ++ byteAt buf (a + n)

/-- The type tag of a frame (30_encoding.md R62, R67). -/
def frameTag (buf : List Byte) : Config.Tag := fieldBits buf Config.tagOffset Config.lenTag

/-- The header fields of a frame at the offsets of 30_encoding.md R62. -/
def frameHeader (buf : List Byte) : FrameHeader :=
  ⟨fieldBits buf Config.offDestination Config.lenDestination, fieldBits buf Config.offSource Config.lenSource,
    fieldBits buf Config.offSwarmId Config.lenSwarmId, fieldBits buf Config.offVersion Config.lenVersion⟩

/-- The location record at byte offset `a` (30_encoding.md R65, R66). -/
def frameLocation (buf : List Byte) (a : Nat) : FrameLocation :=
  ⟨fieldBits buf (a + Config.offBits) Config.lenBits,
    fieldBits buf (a + Config.offPolynomialIndex) Config.lenPolynomialIndex,
    fieldBits buf (a + Config.offOffset) Config.lenOffset⟩

/-- Field `k` of an F-MOVE frame's body (30_encoding.md R63). -/
def moveBits (buf : List Byte) (k : Nat) : BitVec (8 * Config.lenMoveField) :=
  fieldBits buf (Config.bodyOffset + Config.lenMoveField * k) Config.lenMoveField

/-- Field `k` of an F-RGB frame's body (30_encoding.md R64). -/
def rgbBits (buf : List Byte) (k : Nat) : BitVec (8 * Config.lenRgbField) :=
  fieldBits buf (Config.bodyOffset + Config.lenRgbField * k) Config.lenRgbField

/-- Location record `k` of a frame's body (30_encoding.md R65, R66). -/
def bodyLocation (buf : List Byte) (k : Nat) : FrameLocation := frameLocation buf (Config.bodyOffset + Config.wLoc * k)

/-- The fields of a frame of a known format, at the offsets of 30_encoding.md R63 to R66. -/
def frameInstr (format : Variant) (buf : List Byte) : Instr :=
  let h := frameHeader buf
  match format with
  | .move => .fMove h (moveBits buf 0) (moveBits buf 1) (moveBits buf 2) (moveBits buf 3)
  | .rgb => .fRgb h (rgbBits buf 0) (rgbBits buf 1) (rgbBits buf 2)
  | .data => .fData h.destination h.source h.swarmId h.version (tabulate Config.nLoc (bodyLocation buf))
  | .loc => .fLoc h (bodyLocation buf 0)

/-- Read a frame: length, then tag, then the length its row states (44_payload.md R163, 60_exceptions.md R186); bytes
beyond the frame are not read (30_encoding.md R70). -/
def decodeFrame (buf : List Byte) : Except Reject Instr :=
  if buf.length < Config.minDecodeLen then .error (.frameError .truncatedBuffer)
  else
    match frameRowOf (frameTag buf) with
    | none => .error (.frameError .unsupportedPayloadType)
    | some r =>
      if buf.length < r.frameLength then .error (.frameError .truncatedBuffer)
      else .ok (frameInstr r.format buf)

/-- The instruction a request stands for, or why there is none. -/
def decode : Request → Except Reject Instr
  | .op p => decodeOp p
  | .frame buf => decodeFrame buf

/-- The `n` bytes of a field, most significant first (30_encoding.md R61). -/
def fieldBytes (n : Nat) (v : BitVec (8 * n)) : List Byte :=
  (List.range n).map fun i => v.extractLsb' (8 * (n - 1 - i)) 8

/-- Bytes 0 to 18 of a frame (30_encoding.md R62). -/
def frameHeaderBytes (h : FrameHeader) : List Byte :=
  fieldBytes Config.lenDestination h.destination ++ fieldBytes Config.lenSource h.source ++
    fieldBytes Config.lenSwarmId h.swarmId ++ fieldBytes Config.lenVersion h.version

/-- The common prefix of the formats: header and tag (30_encoding.md R62). -/
def framePrefix (h : FrameHeader) (tag : Config.Tag) : List Byte := frameHeaderBytes h ++ fieldBytes Config.lenTag tag

/-- The ten bytes of a location record (30_encoding.md R65, R66). -/
def frameLocationBytes (l : FrameLocation) : List Byte :=
  fieldBytes Config.lenBits l.bits ++ fieldBytes Config.lenPolynomialIndex l.polynomialIndex ++
    fieldBytes Config.lenOffset l.offset

/-- MoveRaw's slots in wire order (10_state.md R22). -/
def moveSlots (m : MoveRaw) : List Int := [m.leftX, m.leftY, m.rightX, m.rightY]

/-- RgbLed's slots in wire order (10_state.md R22). -/
def rgbSlots (c : RgbLed) : List Int := [c.red, c.green, c.blue]

/-- Lh2RawLocation's slots in wire order (10_state.md R22). -/
def locSlots (l : Lh2RawLocation) : List Int := [l.bits, l.polynomialIndex, l.offset]

/-- Lh2RawData's slots: its records' in order (43_body_variants.md R141). -/
def dataSlots (d : Lh2RawData) : List Int := d.locs.toList.flatMap locSlots

/-- The request that carries an instruction: its select and operand ports, all other ports zero, or its frame bytes
(30_encoding.md R62 to R66, R72 to R74). -/
def encode : Instr → Request
  | .fMove h a b c d => .frame (framePrefix h Config.tagCmdMoveRaw ++
      [a, b, c, d].flatMap (fieldBytes Config.lenMoveField))
  | .fRgb h r g b => .frame (framePrefix h Config.tagCmdRgbLed ++
      [r, g, b].flatMap (fieldBytes Config.lenRgbField))
  | .fData d s w v locs => .frame (framePrefix ⟨d, s, w, v⟩ Config.tagLh2RawData ++
      locs.toList.flatMap frameLocationBytes)
  | .fLoc h l => .frame (framePrefix h Config.tagLh2Location ++ frameLocationBytes l)
  | .fenc v n e g => .op { op := 0x0, value := v, length := BitVec.ofNat 4 n, endian := e.port, sgn := signedPort g }
  | .fdec b n e g => .op { op := 0x1, buf := b, length := BitVec.ofNat 4 n, endian := e.port, sgn := signedPort g }
  | .hfields h => .op { op := 0x2, h := h }
  | .henc h => .op { op := 0x3, h := h }
  | .hdec b => .op { op := 0x4, buf := b }
  | .lookup t => .op { op := 0x5, tag := t }
  | .moveFields m => .op { op := 0x6, x := moveSlots m }
  | .rgbFields c => .op { op := 0x7, x := rgbSlots c }
  | .locFields l => .op { op := 0x8, x := locSlots l }
  | .dataFields d => .op { op := 0x9, x := dataSlots d }
  | .moveDec b => .op { op := 0xA, buf := b }
  | .rgbDec b => .op { op := 0xB, buf := b }
  | .locDec b => .op { op := 0xC, buf := b }
  | .dataDec b => .op { op := 0xD, buf := b }
  | .penc h t x => .op { op := 0xE, h := h, typ := t, x := x }
  | .pdec b => .op { op := 0xF, buf := b }

/-- An operation request made from a select alone: every operand that the table gives no bits is zero, the buffer ports
are as many zero bytes as the longest structure, and what must be of a stated size has it (length 1 and one byte,
the variant's slot count). DESIGN CHOICE, log 6. -/
def selectRequest (sel : BitVec 4) : Ports :=
  match opOfSelect sel with
  | .fenc => { op := sel, length := 1 }
  | .fdec => { op := sel, length := 1, buf := [0] }
  | .hfields => { op := sel }
  | .henc => { op := sel }
  | .hdec => { op := sel, buf := List.replicate Config.maxFrameLen 0 }
  | .lookup => { op := sel }
  | .moveFields => { op := sel, x := List.replicate Config.slotsMove 0 }
  | .rgbFields => { op := sel, x := List.replicate Config.slotsRgb 0 }
  | .locFields => { op := sel, x := List.replicate Config.slotsLoc 0 }
  | .dataFields => { op := sel, x := List.replicate Config.nSlots 0 }
  | .moveDec => { op := sel, buf := List.replicate Config.maxFrameLen 0 }
  | .rgbDec => { op := sel, buf := List.replicate Config.maxFrameLen 0 }
  | .locDec => { op := sel, buf := List.replicate Config.maxFrameLen 0 }
  | .dataDec => { op := sel, buf := List.replicate Config.maxFrameLen 0 }
  | .penc => { op := sel, x := List.replicate Config.slotsMove 0 }
  | .pdec => { op := sel, buf := List.replicate Config.maxFrameLen 0 }

/-- A frame of the longest length that is zero but for its tag (30_encoding.md R62). -/
def frameOfTag (tag : Config.Tag) : List Byte :=
  List.replicate Config.tagOffset 0 ++ fieldBytes Config.lenTag tag ++ List.replicate Config.wData 0

/-- The request that a word of `opcode_table.json` stands for: up to eight bits whose value is a 4-bit select are an
operation; another word of the tag's length is a tag, the only bits the table numbers in a FRAME row; a longer word is a
frame whose byte `k` is bits `8k` to `8k+7` of `w`, all bits above `nbits` zero. DESIGN CHOICE, log 6. -/
def tableRequest (nbits w : Nat) : Request :=
  if nbits ≤ 8 ∧ w < 16 then .op (selectRequest (BitVec.ofNat 4 w))
  else if w < 2 ^ (8 * Config.lenTag) then .frame (frameOfTag (BitVec.ofNat _ w))
  else .frame ((List.range Config.maxFrameLen).map fun k => BitVec.ofNat 8 (w % 2 ^ nbits / 256 ^ k))

/-- The instruction the decoder reads from a word of `opcode_table.json`. -/
def decodeTableWord (nbits w : Nat) : Option Instr :=
  match decode (tableRequest nbits w) with
  | .ok i => some i
  | .error _ => none

end Sys2Proof
end

