-- ==== Sys2Proof/Machine/State.lean ====
section
/-! DEFINITION. What the machine holds, as plain data, and how it can stop. The block itself holds nothing between
transactions (10_state.md R20, R28): State is the two sides of its interface, the requests presented and the
responses delivered (log 1). -/

namespace Sys2Proof.Machine

/-- The result values of a successful operation (30_encoding.md R73). -/
inductive Result where
  /-- The output frame buffer of `FENC`, `HENC` or `PENC` (20_memory.md R52). -/
  | bytes (b : List Byte)
  /-- `FDEC`'s integer (40_field_converter.md R92). -/
  | value (v : Int)
  /-- The descriptor list of `HFIELDS` or a `FIELDS` operation (41_header.md R111). -/
  | descriptors (fds : List FieldDescriptor)
  /-- `HDEC`'s header and version-mismatch flag (41_header.md R113, R115). -/
  | header (h : Header) (vmis : Bool)
  /-- `LOOKUP`'s body width and variant id (42_registry_dispatch.md R126). -/
  | registry (w : Nat) (vid : Variant)
  /-- The body slots of a `DEC` operation (43_body_variants.md R143 to R146). -/
  | body (x : Body)
  /-- `PDEC`'s payload record and version-mismatch flag (44_payload.md R163). -/
  | payload (pr : Payload) (vmis : Bool)
  deriving DecidableEq, Repr

/-- A response: the complete result or one error kind, never a mixture (60_exceptions.md R188). -/
inductive Response where
  | ok (r : Result)
  | error (k : ErrorKind)
  deriving DecidableEq, Repr

/-- The machine's state. -/
structure State where
  /-- Requests the host has presented and the block has not taken, oldest first (70_reset_and_hazards.md R212). -/
  requests : List Request
  /-- Responses delivered, oldest first; no operation reads them (10_state.md R28). -/
  responses : List Response
  deriving DecidableEq, Repr

/-- Reasons for the machine to stop with a fault: none. The three error kinds end a transaction, not the machine, and
are delivered in its response (60_exceptions.md R188, R189); nobody raises a fault. Safe (DEDUCED, log 15). -/
inductive Fault where
  deriving DecidableEq, Repr

/-- Requests the block gives no meaning (60_exceptions.md R192); none is an error kind. -/
inductive Refusal where
  /-- An instruction that has no meaning in the model, by mnemonic; raised by an arm of `exec` alone. Safe. -/
  | notModelled (mnemonic : String)
  /-- `FENC` or `FDEC` with a length of 0 or above 8 (40_field_converter.md R90). Safe (log 8). -/
  | fieldLength
  /-- `FDEC` with a byte count that is not its length (40_field_converter.md R92). Safe (log 16). -/
  | byteCount
  /-- A `FIELDS` operation or `PENC` with a slot count that is not its variant's (10_state.md R22). Safe (log 16). -/
  | slotCount
  deriving DecidableEq, Repr

/-- The state after reset: no request presented, no response outstanding (10_state.md R30; log 20). -/
def State.reset : State := { requests := [], responses := [] }

end Sys2Proof.Machine
end

