-- ==== Sys2Proof/Machine/Operands.lean ====
section
/-! DEFINITION. The operand and result forms: hardwired descriptor lists (10_state.md R27), body slots (R22), the
registry table (42_registry_dispatch.md R125) and the port coding of variant ids and widths (30_encoding.md R74). -/

namespace Sys2Proof.Machine

/-- `HDS`, the header's descriptor list (41_header.md R110). -/
def headerShapes : List FieldShape :=
  [⟨.destination, Config.lenDestination, .big, false⟩, ⟨.source, Config.lenSource, .big, false⟩,
    ⟨.swarmId, Config.lenSwarmId, .big, false⟩, ⟨.version, Config.lenVersion, .big, false⟩]

/-- The rows of `MOVE_DS`, one for each slot (43_body_variants.md R135). -/
def moveTable : Vector FieldShape Config.slotsMove :=
  #v[⟨.leftX, Config.lenMoveField, .big, true⟩, ⟨.leftY, Config.lenMoveField, .big, true⟩,
    ⟨.rightX, Config.lenMoveField, .big, true⟩, ⟨.rightY, Config.lenMoveField, .big, true⟩]

/-- `MOVE_DS` (43_body_variants.md R135). -/
def moveShapes : List FieldShape := moveTable.toList

/-- The rows of `RGB_DS`, one for each slot (43_body_variants.md R137). -/
def rgbTable : Vector FieldShape Config.slotsRgb :=
  #v[⟨.red, Config.lenRgbField, .big, false⟩, ⟨.green, Config.lenRgbField, .big, false⟩,
    ⟨.blue, Config.lenRgbField, .big, false⟩]

/-- `RGB_DS` (43_body_variants.md R137). -/
def rgbShapes : List FieldShape := rgbTable.toList

/-- The rows of `LOC_DS`, one for each slot (43_body_variants.md R139). -/
def locTable : Vector FieldShape Config.slotsLoc :=
  #v[⟨.bits, Config.lenBits, .big, false⟩, ⟨.polynomialIndex, Config.lenPolynomialIndex, .big, false⟩,
    ⟨.offset, Config.lenOffset, .big, true⟩]

/-- `LOC_DS` (43_body_variants.md R139). -/
def locShapes : List FieldShape := locTable.toList

/-- `DATA_DS`: `LOC_DS` repeated `N_LOC` times, with the sub-record's own labels (43_body_variants.md R141; log 17). -/
def dataShapes : List FieldShape := (List.replicate Config.nLoc locShapes).flatten

/-- The body descriptor list of a variant (42_registry_dispatch.md R125). -/
def bodyShapes : Variant → List FieldShape
  | .move => moveShapes
  | .rgb => rgbShapes
  | .data => dataShapes
  | .loc => locShapes

/-- Bytes a descriptor list covers: the sum of its lengths (30_encoding.md R71). -/
def shapesWidth (ds : List FieldShape) : Nat := (ds.map (·.length)).sum

/-- A descriptor: a shape paired with a value, unchecked (43_body_variants.md R149). -/
def describe (d : FieldShape) (v : Int) : FieldDescriptor := ⟨d.name, v, d.length, d.endianness, d.signed⟩

/-- Descriptors of a slot list, in wire order (43_body_variants.md R149). -/
def describeAll (ds : List FieldShape) (xs : List Int) : List FieldDescriptor := List.zipWith describe ds xs

/-- `TAGFD(t) = (type, t, 1, big, unsigned)` (44_payload.md R160). -/
def tagDescriptor (t : Config.Tag) : FieldDescriptor := ⟨.type, t.toNat, Config.lenTag, .big, false⟩

/-- The header slots in wire order (41_header.md R110). -/
def headerSlots (h : Header) : List Int := [h.destination, h.source, h.swarmId, h.version]

/-- The body slots `x[0..n-1]` of a payload (10_state.md R22). -/
def bodySlots : Body → List Int
  | .move m => moveSlots m
  | .rgb c => rgbSlots c
  | .data d => dataSlots d
  | .loc l => locSlots l

/-- The variant of a body (10_state.md R22). -/
def bodyVariant : Body → Variant
  | .move _ => .move
  | .rgb _ => .rgb
  | .data _ => .data
  | .loc _ => .loc

/-- The tag value of a variant (42_registry_dispatch.md R125). -/
def variantTag : Variant → Config.Tag
  | .move => Config.tagCmdMoveRaw
  | .rgb => Config.tagCmdRgbLed
  | .data => Config.tagLh2RawData
  | .loc => Config.tagLh2Location

/-- The slot `typ` of a payload record, decided by its body (10_state.md R22). -/
def payloadTyp (p : Payload) : Config.Tag := variantTag (bodyVariant p.body)

/-- One registry row: tag, body width, decoder (42_registry_dispatch.md R125). -/
structure RegistryRow where
  tag : Config.Tag
  w : Nat
  vid : Variant
  deriving DecidableEq, Repr

/-- The registry table, one row for each tag, the only source of a body's width (42_registry_dispatch.md R125, R128).
Row 3 is the parameter `REGISTRY_TAG3` (log 7). -/
def registryTable : Vector RegistryRow Config.nTags :=
  #v[⟨Config.tagCmdMoveRaw, Config.wMove, .move⟩, ⟨Config.tagCmdRgbLed, Config.wRgb, .rgb⟩,
    ⟨Config.tagLh2RawData, Config.wData, .data⟩,
    ⟨Config.tagLh2Location, Config.registryTag3.1, Config.registryTag3.2⟩]

/-- The registry's rows as a list. -/
def registry : List RegistryRow := registryTable.toList

/-- The 2-bit code of a variant id: 0 MOVE, 1 RGB, 2 DATA, 3 LOC (30_encoding.md R74). -/
def vidPort : Variant → BitVec 2
  | .move => 0
  | .rgb => 1
  | .data => 2
  | .loc => 3

/-- The 6-bit code of a body width (30_encoding.md R74). -/
def widthPort (w : Nat) : BitVec 6 := BitVec.ofNat 6 w

end Sys2Proof.Machine
end

