-- ==== Sys2Proof/Machine/Flags.lean ====
section
/-! DEFINITION. The two status outputs (10_state.md R26): `status` and `vmis`. There are no condition codes and no
operation reads a flag. -/

namespace Sys2Proof.Machine

/-- `vmis` is 1 exactly when the decoded version is not `PROTOCOL_VERSION` (41_header.md R115). -/
def versionMismatch (version : Int) : Bool := decide (version ≠ Config.protocolVersion)

/-- The `status` code of an error kind (60_exceptions.md R180). -/
def errorStatus : ErrorKind → BitVec 2
  | .truncatedBuffer => 1
  | .unsupportedPayloadType => 2
  | .fieldOverflow => 3

/-- The 2-bit `status` output of a response: 0 is OK (10_state.md R26). -/
def statusPort : Response → BitVec 2
  | .ok _ => 0
  | .error k => errorStatus k

/-- The `vmis` output of a response: only `HDEC` and `PDEC`, and only with status OK (41_header.md R115). -/
def vmisPort : Response → Option Bool
  | .ok (.header _ vmis) => some vmis
  | .ok (.payload _ vmis) => some vmis
  | .ok (.bytes _) => none
  | .ok (.value _) => none
  | .ok (.descriptors _) => none
  | .ok (.registry _ _) => none
  | .ok (.body _) => none
  | .error _ => none

end Sys2Proof.Machine
end

