-- ==== Sys2Proof/Machine/Ops.lean ====
section
/-! DEFINITION. The shared operations: frame buffers (00_scope.md R12, 20_memory.md), the field converter and its list
helpers (40_field_converter.md R91, R92, R99, R100), the registry lookup (42_registry_dispatch.md R126), the encode
and decode functions built on them (41 to 44), delivering a result and raising an error (60_exceptions.md R188). -/

namespace Sys2Proof.Machine

/-- `MemRead(addr, n) = buf[addr : addr+n]` (00_scope.md R12). -/
def memRead (buf : List Byte) (addr n : Nat) : List Byte := (buf.drop addr).take n

/-- `MemWrite(addr, n, v)` into an output buffer (00_scope.md R12); `n` is the length of `v`. -/
def memWrite (out : List Byte) (addr : Nat) (v : List Byte) : List Byte :=
  out.take addr ++ v ++ out.drop (addr + v.length)

/-- `be(b)`, the big-endian reading (00_scope.md R12, 20_memory.md R42). -/
def be : List Byte → Nat
  | [] => 0
  | b :: bs => b.toNat * 256 ^ bs.length + be bs

/-- `le(b)`, the little-endian reading (00_scope.md R12, 20_memory.md R43; PRESUMED by the spec, G1, log 13). -/
def le : List Byte → Nat
  | [] => 0
  | b :: bs => b.toNat + 256 * le bs

/-- `zext_N(u)` (00_scope.md R12). -/
def zext (u : Nat) : Int := u

/-- `sext_N(u)`, the two's-complement reading of an `N`-bit pattern (00_scope.md R12; PRESUMED by the spec, G2, log 13). -/
def sext (n u : Nat) : Int := if 2 ^ (n - 1) ≤ u then (u : Int) - (2 ^ n : Nat) else u

/-- `value` fits `length` bytes under the signedness (40_field_converter.md R93). -/
def representable (v : Int) (length : Nat) (signed : Bool) : Bool :=
  if signed then decide (-((2 ^ (8 * length - 1) : Nat) : Int) ≤ v ∧ v ≤ (2 ^ (8 * length - 1) : Nat) - 1)
  else decide (0 ≤ v ∧ v < (2 ^ (8 * length) : Nat))

/-- `u` in `length` bytes, most significant first (40_field_converter.md R91). -/
def bigEndianBytes (u length : Nat) : List Byte :=
  (List.range length).map fun i => BitVec.ofNat 8 (u / 256 ^ (length - 1 - i) % 256)

/-- The bytes in wire order (40_field_converter.md R91, R96). -/
def inOrder (e : Endian) (b : List Byte) : List Byte :=
  match e with
  | .big => b
  | .little => b.reverse

/-- `fenc(v, L, e, s)` (40_field_converter.md R91). -/
def fenc (v : Int) (length : Nat) (e : Endian) (signed : Bool) : Except ErrorKind (List Byte) :=
  if representable v length signed then
    .ok (inOrder e (bigEndianBytes (v % ((2 ^ (8 * length) : Nat) : Int)).toNat length))
  else .error .fieldOverflow

/-- The unsigned reading of a field's bytes (40_field_converter.md R92). -/
def patternOf (e : Endian) (b : List Byte) : Nat :=
  match e with
  | .big => be b
  | .little => le b

/-- `fdec(b, L, e, s)` (40_field_converter.md R92). -/
def fdec (b : List Byte) (length : Nat) (e : Endian) (signed : Bool) : Int :=
  if signed then sext (8 * length) (patternOf e b) else zext (patternOf e b)

/-- `encfields(fs)`: the encodings in list order, failing if any fails (40_field_converter.md R99). -/
def encfields : List FieldDescriptor → Except ErrorKind (List Byte)
  | [] => .ok []
  | f :: fs =>
    match fenc f.value f.length f.endianness f.signed with
    | .error k => .error k
    | .ok b =>
      match encfields fs with
      | .error k => .error k
      | .ok bs => .ok (b ++ bs)

/-- `decfields(ds, b)`: the values of consecutive slices (40_field_converter.md R100). -/
def decfields : List FieldShape → List Byte → List Int
  | [], _ => []
  | d :: ds, b => fdec (b.take d.length) d.length d.endianness d.signed :: decfields ds (b.drop d.length)

/-- The big-endian field of `n` bytes at an offset: `fdec(MemRead(addr, n), n, big, s)` (00_scope.md R12, 41_header.md
R113, 43_body_variants.md R143). -/
def bigEndianField (buf : List Byte) (addr n : Nat) (signed : Bool) : Int := fdec (memRead buf addr n) n .big signed

/-- `HFIELDS(H)` (41_header.md R111). -/
def headerFields (h : Header) : List FieldDescriptor := describeAll headerShapes (headerSlots h)

/-- `HENC(H)` (41_header.md R112). -/
def headerEncode (h : Header) : Except ErrorKind (List Byte) := encfields (headerFields h)

/-- `HDEC(buf)` (41_header.md R113). -/
def headerDecode (buf : List Byte) : Except ErrorKind (Header × Bool) :=
  if buf.length < Config.headerLen then .error .truncatedBuffer
  else
    let version := bigEndianField buf Config.offVersion Config.lenVersion false
    .ok (⟨bigEndianField buf Config.offDestination Config.lenDestination false,
      bigEndianField buf Config.offSource Config.lenSource false,
      bigEndianField buf Config.offSwarmId Config.lenSwarmId false, version⟩, versionMismatch version)

/-- `LOOKUP(tag)`: the whole byte is compared (42_registry_dispatch.md R126). -/
def registryLookup (tag : Config.Tag) : Except ErrorKind RegistryRow :=
  match registry.find? fun r => tag == r.tag with
  | some r => .ok r
  | none => .error .unsupportedPayloadType

/-- `MOVE.FIELDS(x)` (43_body_variants.md R136). -/
def moveDescriptors (m : MoveRaw) : List FieldDescriptor := describeAll moveShapes (moveSlots m)

/-- `RGB.FIELDS(x)` (43_body_variants.md R138). -/
def rgbDescriptors (c : RgbLed) : List FieldDescriptor := describeAll rgbShapes (rgbSlots c)

/-- `LOC.FIELDS(x)` (43_body_variants.md R140). -/
def locDescriptors (l : Lh2RawLocation) : List FieldDescriptor := describeAll locShapes (locSlots l)

/-- `DATA.FIELDS(x)`: the records' descriptors in order (43_body_variants.md R142, R147). -/
def dataDescriptors (d : Lh2RawData) : List FieldDescriptor := d.locs.toList.flatMap locDescriptors

/-- Slot `k` of a MoveRaw body (43_body_variants.md R143). -/
def moveField (buf : List Byte) (k : Nat) : Int :=
  bigEndianField buf (Config.lenMoveField * k) Config.lenMoveField true

/-- `MOVE.DEC(buf)` (43_body_variants.md R143). -/
def moveDecode (buf : List Byte) : Except ErrorKind MoveRaw :=
  if buf.length < Config.wMove then .error .truncatedBuffer
  else .ok ⟨moveField buf 0, moveField buf 1, moveField buf 2, moveField buf 3⟩

/-- Slot `k` of an RgbLed body (43_body_variants.md R144). -/
def rgbField (buf : List Byte) (k : Nat) : Int :=
  bigEndianField buf (Config.lenRgbField * k) Config.lenRgbField false

/-- `RGB.DEC(buf)` (43_body_variants.md R144). -/
def rgbDecode (buf : List Byte) : Except ErrorKind RgbLed :=
  if buf.length < Config.wRgb then .error .truncatedBuffer
  else .ok ⟨rgbField buf 0, rgbField buf 1, rgbField buf 2⟩

/-- The location record at the start of a buffer that is long enough (43_body_variants.md R145). -/
def locRecord (buf : List Byte) : Lh2RawLocation :=
  ⟨bigEndianField buf Config.offBits Config.lenBits false,
    bigEndianField buf Config.offPolynomialIndex Config.lenPolynomialIndex false,
    bigEndianField buf Config.offOffset Config.lenOffset true⟩

/-- `LOC.DEC(buf)` (43_body_variants.md R145). -/
def locDecode (buf : List Byte) : Except ErrorKind Lh2RawLocation :=
  if buf.length < Config.wLoc then .error .truncatedBuffer else .ok (locRecord buf)

/-- Chunk `k` of a Lh2RawData body: the record `LOC.DEC` gives for `buf[10k : 10k+10]`, which "always receive exactly 10
bytes and cannot fail" (43_body_variants.md R146). -/
def chunkRecord (buf : List Byte) (k : Nat) : Lh2RawLocation := locRecord (memRead buf (Config.wLoc * k) Config.wLoc)

/-- `DATA.DEC(buf)`: one length check, then `N_LOC` fixed chunks (43_body_variants.md R146, R147). -/
def dataDecode (buf : List Byte) : Except ErrorKind Lh2RawData :=
  if buf.length < Config.wData then .error .truncatedBuffer
  else .ok ⟨tabulate Config.nLoc (chunkRecord buf)⟩

/-- The body decoder a variant id selects (42_registry_dispatch.md R127). -/
def bodyDecode (vid : Variant) (buf : List Byte) : Except ErrorKind Body :=
  match vid with
  | .move => (moveDecode buf).map .move
  | .rgb => (rgbDecode buf).map .rgb
  | .data => (dataDecode buf).map .data
  | .loc => (locDecode buf).map .loc

/-- The body's descriptors, `body.fields()` (44_payload.md R168). -/
def bodyDescriptors : Body → List FieldDescriptor
  | .move m => moveDescriptors m
  | .rgb c => rgbDescriptors c
  | .data d => dataDescriptors d
  | .loc l => locDescriptors l

/-- `PENC(PR)` from its ports: lookup first, then header, tag and body, written at offsets 0, 19 and 20
(44_payload.md R161, 60_exceptions.md R187; wire order of the checks, log 24). -/
def payloadEncode (h : Header) (typ : Config.Tag) (x : List Int) : Except ErrorKind (List Byte) := do
  let row ← registryLookup typ
  let hb ← headerEncode h
  let tb ← encfields [tagDescriptor typ]
  let bb ← encfields (describeAll (bodyShapes row.vid) x)
  return memWrite (memWrite (memWrite [] 0 hb) Config.tagOffset tb) Config.bodyOffset bb

/-- `PDEC(buf)`: the five steps (44_payload.md R163). -/
def payloadDecode (buf : List Byte) : Except ErrorKind (Payload × Bool) :=
  if buf.length < Config.minDecodeLen then .error .truncatedBuffer
  else do
    let (h, vmis) ← headerDecode (memRead buf 0 Config.headerLen)
    let t := bigEndianField buf Config.tagOffset Config.lenTag false
    let row ← registryLookup (BitVec.ofInt _ t)
    if buf.length < Config.bodyOffset + row.w then .error .truncatedBuffer
    else do
      let x ← bodyDecode row.vid (memRead buf Config.bodyOffset row.w)
      return (⟨h, x⟩, vmis)

/-- The value of an unsigned frame field (30_encoding.md R69). -/
def unsignedField {n : Nat} (u : BitVec n) : Int := zext u.toNat

/-- The value of a signed frame field (30_encoding.md R69). -/
def signedField {n : Nat} (u : BitVec n) : Int := sext n u.toNat

/-- The header a frame's field patterns stand for (30_encoding.md R62, R69). -/
def headerOfFrame (h : FrameHeader) : Header :=
  ⟨unsignedField h.destination, unsignedField h.source, unsignedField h.swarmId, unsignedField h.version⟩

/-- The location record a frame's field patterns stand for (30_encoding.md R65, R66, R69). -/
def locationOfFrame (l : FrameLocation) : Lh2RawLocation :=
  ⟨unsignedField l.bits, unsignedField l.polynomialIndex, signedField l.offset⟩

/-- Take the oldest request presented (20_memory.md R56). -/
def takeRequest (s : State) : Option (Request × State) :=
  match s.requests with
  | [] => none
  | r :: rest => some (r, { s with requests := rest })

/-- Deliver a response: the transaction ends and nothing else changes (60_exceptions.md R188). -/
def deliver (r : Response) (s : State) : State := { s with responses := s.responses ++ [r] }

/-- Raise an error, the one shared entry of all three kinds: the response is the kind alone, nothing is saved and
control goes nowhere (60_exceptions.md R188); there is no return from it, the next request is simply taken (R190). -/
def raiseError (k : ErrorKind) (s : State) : State := deliver (.error k) s

/-- End a transaction with its outcome (00_scope.md R13). -/
def finish (outcome : Except ErrorKind Result) (s : State) : Host.Outcome State Fault Refusal :=
  match outcome with
  | .ok r => .next (deliver (.ok r) s)
  | .error k => .next (raiseError k s)

/-- The refusal that names a violation of the operand domain (60_exceptions.md R192). -/
def refusalOf : DomainViolation → Refusal
  | .fieldLength => .fieldLength
  | .byteCount => .byteCount
  | .slotCount => .slotCount

/-- What happens with a request that is no instruction: a frame's error is raised, as `PDEC` does (44_payload.md R163;
DEDUCED, log 5); a request outside the domain is refused (60_exceptions.md R192). -/
def rejectRequest (r : Reject) (s : State) : Host.Outcome State Fault Refusal :=
  match r with
  | .frameError k => .next (raiseError k s)
  | .outOfDomain d => .refused (refusalOf d)

end Sys2Proof.Machine
end

