-- ==== Sys2Proof/Machine/BodyVariants.lean ====
section
/-! DEFINITION. The meanings of the eight body operations (43_body_variants.md). A `FIELDS` operation never fails and a
`DEC` operation fails only on a buffer shorter than its variant's width (R149); surplus bytes are ignored (log 9). -/

namespace Sys2Proof.Machine

/-- `MOVE.FIELDS` (43_body_variants.md R136). -/
def execMoveFields (m : MoveRaw) (s : State) : Host.Outcome State Fault Refusal :=
  finish (.ok (.descriptors (moveDescriptors m))) s

/-- `RGB.FIELDS` (43_body_variants.md R138). -/
def execRgbFields (c : RgbLed) (s : State) : Host.Outcome State Fault Refusal :=
  finish (.ok (.descriptors (rgbDescriptors c))) s

/-- `LOC.FIELDS` (43_body_variants.md R140). -/
def execLocFields (l : Lh2RawLocation) (s : State) : Host.Outcome State Fault Refusal :=
  finish (.ok (.descriptors (locDescriptors l))) s

/-- `DATA.FIELDS` (43_body_variants.md R142). -/
def execDataFields (d : Lh2RawData) (s : State) : Host.Outcome State Fault Refusal :=
  finish (.ok (.descriptors (dataDescriptors d))) s

/-- `MOVE.DEC` (43_body_variants.md R143). -/
def execMoveDec (buf : List Byte) (s : State) : Host.Outcome State Fault Refusal :=
  finish ((moveDecode buf).map fun m => .body (.move m)) s

/-- `RGB.DEC` (43_body_variants.md R144). -/
def execRgbDec (buf : List Byte) (s : State) : Host.Outcome State Fault Refusal :=
  finish ((rgbDecode buf).map fun c => .body (.rgb c)) s

/-- `LOC.DEC` (43_body_variants.md R145). -/
def execLocDec (buf : List Byte) (s : State) : Host.Outcome State Fault Refusal :=
  finish ((locDecode buf).map fun l => .body (.loc l)) s

/-- `DATA.DEC` (43_body_variants.md R146). -/
def execDataDec (buf : List Byte) (s : State) : Host.Outcome State Fault Refusal :=
  finish ((dataDecode buf).map fun d => .body (.data d)) s

end Sys2Proof.Machine
end

