-- ==== Sys2Proof/Machine/FieldConverter.lean ====
section
/-! DEFINITION. The meanings of FCONV's operations: `FENC`, `FDEC` (40_field_converter.md). -/

namespace Sys2Proof.Machine

/-- `FENC` (40_field_converter.md R91): the bytes, or `FieldOverflow`; a length out of range is refused (R90). -/
def execFenc (value : Int) (length : Nat) (endianness : Endian) (signed : Bool) (s : State) :
    Host.Outcome State Fault Refusal :=
  if lengthOk length then finish ((fenc value length endianness signed).map .bytes) s
  else .refused .fieldLength

/-- `FDEC` (40_field_converter.md R92): the integer, with no error path; a length out of range (R90) or a byte count
other than the length (R92, D25) is refused. -/
def execFdec (bytes : List Byte) (length : Nat) (endianness : Endian) (signed : Bool) (s : State) :
    Host.Outcome State Fault Refusal :=
  if lengthOk length then
    if bytes.length = length then finish (.ok (.value (fdec bytes length endianness signed))) s
    else .refused .byteCount
  else .refused .fieldLength

end Sys2Proof.Machine
end

