-- ==== Sys2Proof/Machine/Frames.lean ====
section
/-! DEFINITION. The meanings of the four frame formats. The frame is the word and the tag its opcode, and "`PDEC` is its
decoder" (10_state.md R33): a frame's meaning is the payload its fields stand for, each field assembled as
30_encoding.md R69 says (DEDUCED, log 4). -/

namespace Sys2Proof.Machine

/-- The outcome of a frame whose body is known: its payload and `vmis` (44_payload.md R163 step 5, 41_header.md R115). -/
def finishFrame (h : FrameHeader) (body : Body) (s : State) : Host.Outcome State Fault Refusal :=
  finish (.ok (.payload ⟨headerOfFrame h, body⟩ (versionMismatch (headerOfFrame h).version))) s

/-- `F-MOVE` (30_encoding.md R63): four signed bytes. -/
def execFMove (h : FrameHeader) (leftX leftY rightX rightY : BitVec (8 * Config.lenMoveField)) (s : State) :
    Host.Outcome State Fault Refusal :=
  finishFrame h (.move ⟨signedField leftX, signedField leftY, signedField rightX, signedField rightY⟩) s

/-- `F-RGB` (30_encoding.md R64): three unsigned bytes. -/
def execFRgb (h : FrameHeader) (red green blue : BitVec (8 * Config.lenRgbField)) (s : State) :
    Host.Outcome State Fault Refusal :=
  finishFrame h (.rgb ⟨unsignedField red, unsignedField green, unsignedField blue⟩) s

/-- `F-DATA` (30_encoding.md R65): `N_LOC` location records. -/
def execFData (destination : BitVec (8 * Config.lenDestination)) (source : BitVec (8 * Config.lenSource))
    (swarmId : BitVec (8 * Config.lenSwarmId)) (version : BitVec (8 * Config.lenVersion))
    (locs : Vector FrameLocation Config.nLoc) (s : State) : Host.Outcome State Fault Refusal :=
  finishFrame ⟨destination, source, swarmId, version⟩ (.data ⟨mapEach locationOfFrame locs⟩) s

/-- `F-LOC` (30_encoding.md R66): one location record (D11, log 7). -/
def execFLoc (h : FrameHeader) (l : FrameLocation) (s : State) : Host.Outcome State Fault Refusal :=
  finishFrame h (.loc (locationOfFrame l)) s

end Sys2Proof.Machine
end

