-- ==== Sys2Proof/Machine/HeaderOps.lean ====
section
/-! DEFINITION. The meanings of the header operations: `HFIELDS`, `HENC`, `HDEC` (41_header.md). -/

namespace Sys2Proof.Machine

/-- `HFIELDS` (41_header.md R111): values are copied unchecked. -/
def execHfields (h : Header) (s : State) : Host.Outcome State Fault Refusal :=
  finish (.ok (.descriptors (headerFields h))) s

/-- `HENC` (41_header.md R112): 19 bytes, or `FieldOverflow`; the version is written as given (R116). -/
def execHenc (h : Header) (s : State) : Host.Outcome State Fault Refusal :=
  finish ((headerEncode h).map .bytes) s

/-- `HDEC` (41_header.md R113): the header and `vmis` (R115), or `TruncatedBuffer`; surplus bytes are ignored (log 9). -/
def execHdec (buf : List Byte) (s : State) : Host.Outcome State Fault Refusal :=
  finish ((headerDecode buf).map fun r => .header r.1 r.2) s

end Sys2Proof.Machine
end

