-- ==== Sys2Proof/Machine/PayloadOps.lean ====
section
/-! DEFINITION. The meanings of `PENC` and `PDEC` (44_payload.md). -/

namespace Sys2Proof.Machine

/-- `PENC` (44_payload.md R161): the frame, or `UnsupportedPayloadType` before `FieldOverflow` (60_exceptions.md R187);
a slot count that is not the tag's is refused (R192). -/
def execPenc (h : Header) (typ : Config.Tag) (x : List Int) (s : State) : Host.Outcome State Fault Refusal :=
  if slotsOk typ x then finish ((payloadEncode h typ x).map .bytes) s else .refused .slotCount

/-- `PDEC` (44_payload.md R163): the payload and `vmis`, or an error in the order of the five steps
(60_exceptions.md R186). -/
def execPdec (buf : List Byte) (s : State) : Host.Outcome State Fault Refusal :=
  finish ((payloadDecode buf).map fun r => .payload r.1 r.2) s

end Sys2Proof.Machine
end

