-- ==== Sys2Proof/Machine/RegistryOps.lean ====
section
/-! DEFINITION. The meaning of `LOOKUP` (42_registry_dispatch.md). -/

namespace Sys2Proof.Machine

/-- `LOOKUP` (42_registry_dispatch.md R126): width and variant id, or `UnsupportedPayloadType`. -/
def execLookup (tag : Config.Tag) (s : State) : Host.Outcome State Fault Refusal :=
  finish ((registryLookup tag).map fun r => .registry r.w r.vid) s

end Sys2Proof.Machine
end

