-- ==== Sys2Proof/Machine/Dispatch.lean ====
section
/-! DEFINITION. One arm per instruction, each a call of its meaning (30_encoding.md R72, R76). -/

namespace Sys2Proof.Machine

def exec (i : Instr) (s : State) : Host.Outcome State Fault Refusal :=
  match i with
  | .fMove h leftX leftY rightX rightY => Sys2Proof.Machine.execFMove h leftX leftY rightX rightY s
  | .fRgb h red green blue => Sys2Proof.Machine.execFRgb h red green blue s
  | .fData destination source swarmId version locs => Sys2Proof.Machine.execFData destination source swarmId version locs s
  | .fLoc h l => Sys2Proof.Machine.execFLoc h l s
  | .fenc value length endianness signed => Sys2Proof.Machine.execFenc value length endianness signed s
  | .fdec bytes length endianness signed => Sys2Proof.Machine.execFdec bytes length endianness signed s
  | .hfields h => Sys2Proof.Machine.execHfields h s
  | .henc h => Sys2Proof.Machine.execHenc h s
  | .hdec buf => Sys2Proof.Machine.execHdec buf s
  | .lookup tag => Sys2Proof.Machine.execLookup tag s
  | .moveFields m => Sys2Proof.Machine.execMoveFields m s
  | .rgbFields c => Sys2Proof.Machine.execRgbFields c s
  | .locFields l => Sys2Proof.Machine.execLocFields l s
  | .dataFields d => Sys2Proof.Machine.execDataFields d s
  | .moveDec buf => Sys2Proof.Machine.execMoveDec buf s
  | .rgbDec buf => Sys2Proof.Machine.execRgbDec buf s
  | .locDec buf => Sys2Proof.Machine.execLocDec buf s
  | .dataDec buf => Sys2Proof.Machine.execDataDec buf s
  | .penc h typ x => Sys2Proof.Machine.execPenc h typ x s
  | .pdec buf => Sys2Proof.Machine.execPdec buf s

end Sys2Proof.Machine
end

