-- ==== Sys2Proof/Machine/Step.lean ====
section
/-! DEFINITION. One step is one transaction: the oldest request is taken, decoded and run to its response
(D1, 20_memory.md R54). -/

namespace Sys2Proof.Machine

/-- One transaction. With no request presented the block waits and nothing changes (DESIGN CHOICE, log 2). -/
def step (s : State) : Host.Outcome State Fault Refusal :=
  match takeRequest s with
  | none => .next s
  | some (r, t) =>
    match decode r with
    | .ok i => exec i t
    | .error e => rejectRequest e t

/-- Present the request a table word stands for as the next one the block takes (log 3, log 6). -/
def State.withFetchWord (s : State) (nbits w : Nat) : State :=
  { s with requests := tableRequest nbits w :: s.requests }

end Sys2Proof.Machine
end

