-- ==== Sys2Proof/Safety.lean ====
section
/-! DEFINITION. What counts as a safe run, in the terms the statements use: the ranges of decoded values (10_state.md
R31), soundness of a delivered response (R31, R32, 41_header.md R115), the requests the block has a meaning for
(60_exceptions.md R192), and the causes of the three error kinds (60_exceptions.md R184). -/

namespace Sys2Proof.Machine

/-- The header's ranges (10_state.md R31, 41_header.md R110). -/
def HeaderInRange (h : Header) : Prop :=
  (0 ≤ h.destination ∧ h.destination < 2 ^ 64) ∧ (0 ≤ h.source ∧ h.source < 2 ^ 64) ∧
    (0 ≤ h.swarmId ∧ h.swarmId < 65536) ∧ (0 ≤ h.version ∧ h.version < 256)

/-- The ranges of a location record (10_state.md R31, 43_body_variants.md R139). -/
def LocationInRange (l : Lh2RawLocation) : Prop :=
  (0 ≤ l.bits ∧ l.bits < 2 ^ 64) ∧ (0 ≤ l.polynomialIndex ∧ l.polynomialIndex < 256) ∧
    (-128 ≤ l.offset ∧ l.offset ≤ 127)

/-- The ranges of a body's slots (10_state.md R31, 43_body_variants.md R135, R137, R139, R141). -/
def BodyInRange : Body → Prop
  | .move m => (-128 ≤ m.leftX ∧ m.leftX ≤ 127) ∧ (-128 ≤ m.leftY ∧ m.leftY ≤ 127) ∧
      (-128 ≤ m.rightX ∧ m.rightX ≤ 127) ∧ (-128 ≤ m.rightY ∧ m.rightY ≤ 127)
  | .rgb c => (0 ≤ c.red ∧ c.red < 256) ∧ (0 ≤ c.green ∧ c.green < 256) ∧ (0 ≤ c.blue ∧ c.blue < 256)
  | .data d => LocationInRange d.locs[0] ∧ LocationInRange d.locs[1] ∧ LocationInRange d.locs[2] ∧
      LocationInRange d.locs[3]
  | .loc l => LocationInRange l

/-- The ranges of a payload (44_payload.md R165). -/
def PayloadInRange (p : Payload) : Prop := HeaderInRange p.header ∧ BodyInRange p.body

/-- The shape of a descriptor, its value forgotten. -/
def shapeOf (f : FieldDescriptor) : FieldShape := ⟨f.name, f.length, f.endianness, f.signed⟩

/-- A delivered response is sound: decoded values lie in their fields' ranges (10_state.md R31), the version flag says
what it should (41_header.md R115), a registry answer is a row (42_registry_dispatch.md R125), descriptors are those
of a hardwired list (10_state.md R27), and an output buffer is one field, a header or a frame long (20_memory.md R52). -/
def ResponseSound : Response → Prop
  | .ok (.bytes b) => b.length ∈ [1, 2, 3, 4, 5, 6, 7, 8, 19, 23, 24, 30, 60]
  | .ok (.value v) => -(2 ^ 63) ≤ v ∧ v < 2 ^ 64
  | .ok (.descriptors fds) => fds.map shapeOf ∈ [headerShapes, moveShapes, rgbShapes, locShapes, dataShapes]
  | .ok (.header h vmis) => HeaderInRange h ∧ (vmis = true ↔ h.version ≠ 1)
  | .ok (.registry w vid) => (w, vid) ∈ [(4, Variant.move), (3, .rgb), (40, .data), (10, .loc)]
  | .ok (.body x) => BodyInRange x
  | .ok (.payload p vmis) => PayloadInRange p ∧ (vmis = true ↔ p.header.version ≠ 1)
  | .error _ => True

/-- Every response delivered so far is sound. -/
def ResponsesSound (s : State) : Prop := ∀ r ∈ s.responses, ResponseSound r

/-- A request the block has a meaning for: an instruction, or a frame it answers with an error kind
(60_exceptions.md R192). -/
def RequestAccepted (r : Request) : Prop := ∀ d, decode r ≠ .error (.outOfDomain d)

/-- The operand domain on the ports, select by select (40_field_converter.md R90, R92; 10_state.md R22; 60_exceptions.md
R192): the length of `FENC` and `FDEC`, the byte count of `FDEC`, the slot counts of the `FIELDS` operations and `PENC`.
An invalid `typ` has no count (log 11). -/
def PortsInDomain (p : Ports) : Prop :=
  (p.op = 0x0 ∨ p.op = 0x1 → 1 ≤ p.length.toNat ∧ p.length.toNat ≤ 8) ∧
    (p.op = 0x1 → p.buf.length = p.length.toNat) ∧ (p.op = 0x6 → p.x.length = 4) ∧ (p.op = 0x7 → p.x.length = 3) ∧
    (p.op = 0x8 → p.x.length = 3) ∧ (p.op = 0x9 → p.x.length = 12) ∧
    (p.op = 0xE → (p.typ = 0 → p.x.length = 4) ∧ (p.typ = 1 → p.x.length = 3) ∧ (p.typ = 2 → p.x.length = 12) ∧
      (p.typ = 3 → p.x.length = 3))

/-- Two requests of one select that agree on the ports of that select's row (30_encoding.md R73); on the other ports they
may differ (log 18). -/
def AgreeOnNamedPorts (p q : Ports) : Prop :=
  p.op = q.op ∧ (p.op = 0x0 ∨ p.op = 0x1 → p.length = q.length ∧ p.endian = q.endian ∧ p.sgn = q.sgn) ∧
    (p.op = 0x0 → p.value = q.value) ∧
    (p.op ∈ [0x1, 0x4, 0xA, 0xB, 0xC, 0xD, 0xF] → p.buf = q.buf) ∧ (p.op ∈ [0x2, 0x3, 0xE] → p.h = q.h) ∧
    (p.op = 0x5 → p.tag = q.tag) ∧ (p.op = 0xE → p.typ = q.typ) ∧ (p.op ∈ [0x6, 0x7, 0x8, 0x9, 0xE] → p.x = q.x)

/-- A value fits a field (40_field_converter.md R93). -/
def ValueFits (v : Int) (length : Nat) (signed : Bool) : Prop :=
  if signed then -(2 : Int) ^ (8 * length - 1) ≤ v ∧ v ≤ (2 : Int) ^ (8 * length - 1) - 1
  else 0 ≤ v ∧ v < (2 : Int) ^ (8 * length)

/-- The table of 60_exceptions.md R184: what makes an operation raise an error kind; `False` for a blank cell. A frame
that decodes raises nothing. The `typ` cell of `PENC` rests on D13 (log 11). -/
def ErrorCause : Instr → ErrorKind → Prop
  | .fenc v n _ g, .fieldOverflow => ¬ ValueFits v n g
  | .henc h, .fieldOverflow => ¬ HeaderInRange h
  | .hdec buf, .truncatedBuffer => buf.length < 19
  | .lookup tag, .unsupportedPayloadType => 4 ≤ tag.toNat
  | .moveDec buf, .truncatedBuffer => buf.length < 4
  | .rgbDec buf, .truncatedBuffer => buf.length < 3
  | .locDec buf, .truncatedBuffer => buf.length < 10
  | .dataDec buf, .truncatedBuffer => buf.length < 40
  | .penc _ typ _, .unsupportedPayloadType => 4 ≤ typ.toNat
  | .penc h typ x, .fieldOverflow => typ.toNat < 4 ∧
      ¬ (HeaderInRange h ∧ ∃ b, bodySlots b = x ∧ payloadTyp ⟨h, b⟩ = typ ∧ BodyInRange b)
  | .pdec buf, .truncatedBuffer => buf.length < 20 ∨
      (20 ≤ buf.length ∧ (buf.getD 19 0 = 0 ∧ buf.length < 24 ∨ buf.getD 19 0 = 1 ∧ buf.length < 23 ∨
        buf.getD 19 0 = 2 ∧ buf.length < 60 ∨ buf.getD 19 0 = 3 ∧ buf.length < 30))
  | .pdec buf, .unsupportedPayloadType => 20 ≤ buf.length ∧ 4 ≤ (buf.getD 19 0).toNat
  | _, _ => False

end Sys2Proof.Machine
end

