-- ==== Sys2Proof/Certificates/Slice0/Obligations.lean ====
section
/-! DEFINITION. The statements for the provers, in the order of OBLIGATIONS.json. Each docstring names the rule or
section of spec/ that it formalises and, where a clause rests on a choice, the spec's decision D<n> or the log entry. -/

section

open Sys2Proof Sys2Proof.Machine

/-! ## The step -/

/-- When the oldest request decodes to `i`, a step is `exec i` at the state with that request taken (00_scope.md R3, D1;
that the oldest request presented is the one taken is the model's choice, log 3). -/
def Obligations.StepRunsDecodedInstruction : Prop :=
  ∀ (s : State) (r : Request) (rest : List Request) (i : Instr),
    s.requests = r :: rest → decode r = .ok i → step s = exec i { s with requests := rest }

/-- A raw frame that cannot be read is answered with its error kind, and the machine goes on (44_payload.md R163; the
model's choice that a frame request is answered as `PDEC` answers, log 4 and log 5). -/
def Obligations.StepAnswersUnreadableFrame : Prop :=
  ∀ (s : State) (buf : List Byte) (rest : List Request) (k : ErrorKind),
    s.requests = .frame buf :: rest → decode (.frame buf) = .error (.frameError k) →
      step s = .next { requests := rest, responses := s.responses ++ [.error k] }

/-- The requests outside the operand domain, by select, each refused by the name of its violation (40_field_converter.md
R90, R92, 10_state.md R22, 60_exceptions.md R192; decisions D6 for the bound 8, D25, D4 for the selects, D11 and log 7
for the count of `typ` 3; log 3 for the oldest request, log 16). -/
def Obligations.StepRefusesOutOfDomain : Prop :=
  ∀ (s : State) (p : Ports) (rest : List Request), s.requests = .op p :: rest →
    (p.op = 0x0 ∨ p.op = 0x1 → p.length.toNat = 0 ∨ 8 < p.length.toNat → step s = .refused .fieldLength) ∧
    (p.op = 0x1 → 1 ≤ p.length.toNat → p.length.toNat ≤ 8 → p.buf.length ≠ p.length.toNat →
      step s = .refused .byteCount) ∧
    (p.op = 0x6 → p.x.length ≠ 4 → step s = .refused .slotCount) ∧
    (p.op = 0x7 → p.x.length ≠ 3 → step s = .refused .slotCount) ∧
    (p.op = 0x8 → p.x.length ≠ 3 → step s = .refused .slotCount) ∧
    (p.op = 0x9 → p.x.length ≠ 12 → step s = .refused .slotCount) ∧
    (p.op = 0xE → (p.typ = 0 ∧ p.x.length ≠ 4 ∨ p.typ = 1 ∧ p.x.length ≠ 3 ∨ p.typ = 2 ∧ p.x.length ≠ 12 ∨
      p.typ = 3 ∧ p.x.length ≠ 3) → step s = .refused .slotCount)

/-- With no request presented nothing changes (the model's choice, log 2). -/
def Obligations.StepWithoutRequestWaits : Prop :=
  ∀ s : State, s.requests = [] → step s = .next s

/-- A table word's request, presented by `withFetchWord`, is the next instruction run (the model's choice of how a word
is presented, log 3 and log 6). -/
def Obligations.FetchWordIsRunNext : Prop :=
  ∀ (s : State) (nbits w : Nat) (i : Instr), decodeTableWord nbits w = some i → step (s.withFetchWord nbits w) = exec i s

/-- After reset no request is held and no response is outstanding (10_state.md R30, decision D20; that State holds the
two sides of the interface is the model's choice, log 1 and log 20). -/
def Obligations.ResetHoldsNoTransaction : Prop :=
  State.reset.requests = [] ∧ State.reset.responses = []

/-! ## Invariants and whole-machine rules -/

/-- Every response delivered at reset is sound: there is none, which is the model's choice of an empty list (log 20;
10_state.md R30 says that no response is outstanding, decision D20). -/
def Obligations.ResetResponsesSound : Prop := ResponsesSound State.reset

/-- Every step keeps every delivered response sound: decoded values in range, version flag right, registry answers rows,
descriptors hardwired, output lengths exact (10_state.md R31, R32, decision D10 for the flag, D11 for the tag-3 row). -/
def Obligations.StepKeepsResponsesSound : Prop :=
  ∀ s t : State, ResponsesSound s → step s = .next t → ResponsesSound t

/-- The frame of every instruction: nothing of the state changes but one response, which is added
(60_exceptions.md R188, 70_reset_and_hazards.md R212; D1, D9). -/
def Obligations.ExecOnlyAddsOneResponse : Prop :=
  ∀ (i : Instr) (s t : State), exec i s = .next t →
    t.requests = s.requests ∧ ∃ r, t.responses = s.responses ++ [r]

/-- The outcome of an instruction is a function of the instruction alone: the same response, or the same refusal, in
every state (10_state.md R20, R28; decision D2). -/
def Obligations.ResponseDependsOnRequestAlone : Prop :=
  ∀ i : Instr, (∃ r, ∀ s : State, exec i s = .next { s with responses := s.responses ++ [r] }) ∨
    ∃ q, ∀ s : State, exec i s = .refused q

/-- An instruction takes a next state exactly when it lies in the operand domain, and otherwise is refused by the name
of its violation (60_exceptions.md R192, decisions D6 and D25). -/
def Obligations.ExecCompletesExactlyOnDomain : Prop :=
  ∀ (i : Instr) (s : State), ((∃ t, exec i s = .next t) ↔ i.WellFormed) ∧
    (i.violation = some .fieldLength → exec i s = .refused .fieldLength) ∧
    (i.violation = some .byteCount → exec i s = .refused .byteCount) ∧
    (i.violation = some .slotCount → exec i s = .refused .slotCount)

/-- A run over accepted requests answers each of them, in order, by a response that is a function of that request alone:
the response it gets as the only transaction of the machine (20_memory.md R54 (a) and (b), 60_exceptions.md R189;
decisions D2 and D22; that requests are taken oldest first is the model's choice, log 3). -/
def Obligations.RunAnswersEachRequestAlone : Prop :=
  ∃ respond : Request → Response,
    (∀ r, RequestAccepted r →
      step { requests := [r], responses := [] } = .next { requests := [], responses := [respond r] }) ∧
    ∀ (rs later : List Request) (old : List Response), (∀ r ∈ rs, RequestAccepted r) →
      core.run rs.length ({ requests := rs ++ later, responses := old } : State) =
        .next ({ requests := later, responses := old ++ rs.map respond } : State)

/-- Presenting the same accepted requests in another order gives every request the same response (20_memory.md R54 (b);
decision D22). -/
def Obligations.RunOrderIsImmaterial : Prop :=
  ∀ rs rs' : List Request, rs.Perm rs' → (∀ r ∈ rs, RequestAccepted r) →
    ∃ out out' : List Response,
      core.run rs.length ({ requests := rs, responses := [] } : State) =
        .next ({ requests := [], responses := out } : State) ∧
      core.run rs'.length ({ requests := rs', responses := [] } : State) =
        .next ({ requests := [], responses := out' } : State) ∧
      out.length = rs.length ∧ out'.length = rs'.length ∧ (rs.zip out).Perm (rs'.zip out')

/-- The error table: a well-formed instruction raises an error kind exactly under the cause its cell names, and never
under a blank cell (60_exceptions.md R184; decision D13 for `PENC`'s tag, D11 for tag 3). -/
def Obligations.ErrorsFollowTheTable : Prop :=
  ∀ (i : Instr) (s : State) (k : ErrorKind), i.WellFormed →
    (exec i s = .next { s with responses := s.responses ++ [.error k] } ↔ ErrorCause i k)

/-- The output codes: status 0 exactly for a result and 1, 2, 3 for the three kinds; the version flag of an `HDEC` or
`PDEC` result, and of no other response; the codes of a variant id and of the four widths (60_exceptions.md R180,
10_state.md R26, 41_header.md R115, 30_encoding.md R74; decisions D8 for the status codes, D10 for the flag, D16 for the
variant ids; log 22). -/
def Obligations.StatusCodesOfResponses : Prop :=
  (∀ r : Response, statusPort r = 0 ↔ ∃ x, r = .ok x) ∧ statusPort (.error .truncatedBuffer) = 1 ∧
    statusPort (.error .unsupportedPayloadType) = 2 ∧ statusPort (.error .fieldOverflow) = 3 ∧
    (∀ h vmis, vmisPort (.ok (.header h vmis)) = some vmis) ∧
    (∀ p vmis, vmisPort (.ok (.payload p vmis)) = some vmis) ∧
    (∀ x : Result, (∀ h vmis, x ≠ .header h vmis) → (∀ p vmis, x ≠ .payload p vmis) → vmisPort (.ok x) = none) ∧
    (∀ k, vmisPort (.error k) = none) ∧
    vidPort .move = 0 ∧ vidPort .rgb = 1 ∧ vidPort .data = 2 ∧ vidPort .loc = 3 ∧
    ∀ row ∈ registry, (widthPort row.w).toNat = row.w

/-! ## Encoding -/

/-- Decoding the encoding of a well-formed instruction gives it back, with every operand (30_encoding.md R62 to R66,
R72 to R74). -/
def Obligations.DecodeEncodeRoundTrip : Prop :=
  ∀ i : Instr, i.WellFormed → decode (encode i) = .ok i

/-- Decoding answers only instructions in the operand domain (60_exceptions.md R192, decision D25). -/
def Obligations.DecodedIsWellFormed : Prop :=
  ∀ (r : Request) (i : Instr), decode r = .ok i → i.WellFormed

/-- Encoding a decoded frame gives the frame's own bytes, `20 + w` of them with `w` the registry's width of its tag
(30_encoding.md R68, 44_payload.md R167; decision D11 for tag 3). -/
def Obligations.EncodeOfDecodedFrame : Prop :=
  ∀ (buf : List Byte) (i : Instr), decode (.frame buf) = .ok i →
    ∃ row ∈ registry, row.tag = buf.getD 19 0 ∧ 20 + row.w ≤ buf.length ∧ encode i = .frame (buf.take (20 + row.w))

/-- Every select is assigned, and two requests with different selects are never the same instruction (30_encoding.md
R72, decision D4). -/
def Obligations.SelectsAssignedAndUnambiguous : Prop :=
  (∀ sel : BitVec 4, ∃ (p : Ports) (i : Instr), p.op = sel ∧ decode (.op p) = .ok i) ∧
    ∀ (p q : Ports) (i : Instr), decode (.op p) = .ok i → decode (.op q) = .ok i → p.op = q.op

/-- Words written out from 30_encoding.md R63, R64, R72, R74 decode to the instructions they stand for (decisions D4
and D7 for the operation requests). -/
def Obligations.SpecWordsDecode : Prop :=
  decode (.op { op := 0x0, value := 3, length := 2, endian := 1, sgn := 0 }) = .ok (.fenc 3 2 .little false) ∧
  decode (.op { op := 0x5, tag := 0xFF }) = .ok (.lookup 0xFF) ∧
  decode (.op { op := 0x6, x := [-128, 127, -1, 0] }) = .ok (.moveFields ⟨-128, 127, -1, 0⟩) ∧
  decode (.frame [0, 0, 0, 0, 0, 0, 0, 1, 0, 0, 0, 0, 0, 0, 0, 2, 0, 3, 1, 1, 0xFF, 0x00, 0x80]) =
    .ok (.fRgb ⟨1, 2, 3, 1⟩ 0xFF 0x00 0x80)

/-- A raw inbound frame is answered exactly as `PDEC` answers the same bytes: the frame decoder of 30_encoding.md R76 and
the five steps of 44_payload.md R163 agree on every buffer (10_state.md R33; the frame request itself is the model's,
log 4). -/
def Obligations.FrameRequestActsAsPdec : Prop :=
  ∀ (s : State) (buf : List Byte),
    step { s with requests := .frame buf :: s.requests } =
      step { s with requests := .op { op := 0xF, buf := buf } :: s.requests }

/-- The four frame formats run to the payload of their fields, signed bytes as two's complement, all else unsigned
(30_encoding.md R63 to R66, R69; decision D10 for the flag, D11 for F-LOC, log 4 for a frame's meaning, and log 13 for
two's complement, G2 of 93_implementation_defined.md). -/
def Obligations.FrameFormatsComplete : Prop :=
  ∀ (s : State) (h : FrameHeader),
    let hd : Header := ⟨h.destination.toNat, h.source.toNat, h.swarmId.toNat, h.version.toNat⟩
    let loc : FrameLocation → Lh2RawLocation := fun l => ⟨l.bits.toNat, l.polynomialIndex.toNat, l.offset.toInt⟩
    let answer : Body → State := fun b =>
      { s with responses := s.responses ++ [.ok (.payload ⟨hd, b⟩ (decide (h.version ≠ 1)))] }
    (∀ a b c d : BitVec 8, exec (.fMove h a b c d) s = .next (answer (.move ⟨a.toInt, b.toInt, c.toInt, d.toInt⟩))) ∧
    (∀ r g b : BitVec 8, exec (.fRgb h r g b) s = .next (answer (.rgb ⟨r.toNat, g.toNat, b.toNat⟩))) ∧
    (∀ l0 l1 l2 l3 : FrameLocation, exec (.fData h.destination h.source h.swarmId h.version #v[l0, l1, l2, l3]) s =
      .next (answer (.data ⟨#v[loc l0, loc l1, loc l2, loc l3]⟩))) ∧
    ∀ l : FrameLocation, exec (.fLoc h l) s = .next (answer (.loc (loc l)))

/-! ## The field converter -/

/-- `FENC`: a value that fits gives exactly `length` bytes, the radix-256 digits of `v mod 2^(8L)` in the order of the
endianness; a value that does not fit gives `FieldOverflow` and no byte (40_field_converter.md R91; the little order and
the pattern of a negative value are presumed by the spec, G1 and G2, log 13). -/
def Obligations.FencWritesDigits : Prop :=
  ∀ (s : State) (v : Int) (n : Nat) (e : Endian) (g : Bool), 1 ≤ n → n ≤ 8 →
    (ValueFits v n g → ∃ b : List Byte,
      exec (.fenc v n e g) s = .next { s with responses := s.responses ++ [.ok (.bytes b)] } ∧ b.length = n ∧
      ∀ i < n, (((b.getD i 0).toNat : Nat) : Int) =
        v % 2 ^ (8 * n) / 256 ^ (match e with | .big => n - 1 - i | .little => i) % 256) ∧
    (¬ ValueFits v n g → exec (.fenc v n e g) s = .next { s with responses := s.responses ++ [.error .fieldOverflow] })

/-- `FDEC`: the pattern is the sum of the bytes by place, big or little; unsigned it is the value, signed it is read as
two's complement; there is no error (40_field_converter.md R92; the little order and the signed reading are presumed by
the spec, G1 and G2, log 13). -/
def Obligations.FdecReadsPattern : Prop :=
  ∀ (s : State) (b : List Byte) (n : Nat) (e : Endian) (g : Bool), 1 ≤ n → n ≤ 8 → b.length = n →
    let u : Nat := ∑ i ∈ Finset.range n,
      (b.getD i 0).toNat * 256 ^ (match e with | .big => n - 1 - i | .little => i)
    exec (.fdec b n e g) s = .next { s with responses := s.responses ++
      [.ok (.value (if g = true ∧ 2 ^ (8 * n - 1) ≤ u then (u : Int) - 2 ^ (8 * n) else u))] }

/-- A length of 0 or above 8 is refused, and `FDEC` bytes of another count than the length are refused; neither is an
error kind (40_field_converter.md section 1, decisions D6 and D25). -/
def Obligations.ConverterRefusesOutOfDomain : Prop :=
  ∀ (s : State) (v : Int) (b : List Byte) (n : Nat) (e : Endian) (g : Bool),
    (n = 0 ∨ 8 < n → exec (.fenc v n e g) s = .refused .fieldLength ∧ exec (.fdec b n e g) s = .refused .fieldLength) ∧
    (1 ≤ n → n ≤ 8 → b.length ≠ n → exec (.fdec b n e g) s = .refused .byteCount)

/-- Encoding then decoding a value that fits gives the value, at every positive length (40_field_converter.md R97 (a)). -/
def Obligations.ConverterValueRoundTrip : Prop :=
  ∀ (v : Int) (n : Nat) (e : Endian) (g : Bool), 1 ≤ n → ValueFits v n g →
    ∃ b : List Byte, fenc v n e g = .ok b ∧ b.length = n ∧ fdec b n e g = v

/-- Decoding then encoding bytes gives the bytes, and never overflows, at every positive length
(40_field_converter.md R97 (b)). -/
def Obligations.ConverterByteRoundTrip : Prop :=
  ∀ (b : List Byte) (n : Nat) (e : Endian) (g : Bool), 1 ≤ n → b.length = n → fenc (fdec b n e g) n e g = .ok b

/-- `fdec` is a bijection from the byte sequences of a length onto the values that fit (40_field_converter.md R97 (c)). -/
def Obligations.FdecIsBijective : Prop :=
  ∀ (n : Nat) (e : Endian) (g : Bool), 1 ≤ n →
    (∀ b : List Byte, b.length = n → ValueFits (fdec b n e g) n g) ∧
    ∀ v : Int, ValueFits v n g → ∃! b : List Byte, b.length = n ∧ fdec b n e g = v

/-- The two byte orders are reverses of each other (40_field_converter.md R96; the little order is presumed by the spec,
G1, log 13). -/
def Obligations.ByteOrdersAreReverses : Prop :=
  (∀ (v : Int) (n : Nat) (g : Bool), fenc v n .little g = (fenc v n .big g).map List.reverse) ∧
    ∀ (b : List Byte) (n : Nat) (g : Bool), fdec b n .little g = fdec b.reverse n .big g

/-- At length 1 the endianness has no effect (40_field_converter.md R95). -/
def Obligations.OneByteHasNoOrder : Prop :=
  ∀ (s : State) (v : Int) (b : Byte) (g : Bool),
    exec (.fenc v 1 .big g) s = exec (.fenc v 1 .little g) s ∧
    exec (.fdec [b] 1 .big g) s = exec (.fdec [b] 1 .little g) s

/-- The list helpers are inverses: values that fit come back from their encoding, which is as long as the shapes say, and
bytes of that length come back from their values (40_field_converter.md R99, R100). -/
def Obligations.ListHelpersAreInverse : Prop :=
  ∀ ds : List FieldShape, (∀ d ∈ ds, 1 ≤ d.length) →
    (∀ (vs : List Int) (b : List Byte), vs.length = ds.length → encfields (describeAll ds vs) = .ok b →
      b.length = shapesWidth ds ∧ decfields ds b = vs) ∧
    ∀ b : List Byte, b.length = shapesWidth ds → encfields (describeAll ds (decfields ds b)) = .ok b

/-! ## The header -/

/-- `HFIELDS`: four descriptors, values copied unchecked (41_header.md R111). -/
def Obligations.HfieldsDescribesHeader : Prop :=
  ∀ (s : State) (h : Header), exec (.hfields h) s = .next { s with responses := s.responses ++ [.ok (.descriptors
    [⟨.destination, h.destination, 8, .big, false⟩, ⟨.source, h.source, 8, .big, false⟩,
      ⟨.swarmId, h.swarmId, 2, .big, false⟩, ⟨.version, h.version, 1, .big, false⟩])] }

/-- `HENC`: 19 bytes that hold the four values big-endian at offsets 0, 8, 16, 18, the version as given; any value out of
range gives `FieldOverflow` (41_header.md section 3 with R42 and R110; decision D10 for the version). -/
def Obligations.HencWritesHeader : Prop :=
  ∀ (s : State) (h : Header),
    (HeaderInRange h → ∃ b : List Byte,
      exec (.henc h) s = .next { s with responses := s.responses ++ [.ok (.bytes b)] } ∧ b.length = 19 ∧
      (be (memRead b 0 8) : Int) = h.destination ∧ (be (memRead b 8 8) : Int) = h.source ∧
      (be (memRead b 16 2) : Int) = h.swarmId ∧ (be (memRead b 18 1) : Int) = h.version) ∧
    (¬ HeaderInRange h → exec (.henc h) s = .next { s with responses := s.responses ++ [.error .fieldOverflow] })

/-- `HDEC`: on 19 bytes or more, the big-endian values at offsets 0, 8, 16, 18 and the version flag; on fewer,
`TruncatedBuffer` (41_header.md sections 4 and 6; decision D12 for surplus bytes, D10 for the flag). -/
def Obligations.HdecReadsHeader : Prop :=
  ∀ (s : State) (buf : List Byte),
    (19 ≤ buf.length → exec (.hdec buf) s = .next { s with responses := s.responses ++
      [.ok (.header ⟨be (memRead buf 0 8), be (memRead buf 8 8), be (memRead buf 16 2), (buf.getD 18 0).toNat⟩
        (decide (buf.getD 18 0 ≠ 1)))] }) ∧
    (buf.length < 19 → exec (.hdec buf) s = .next { s with responses := s.responses ++ [.error .truncatedBuffer] })

/-- Header round trip, both ways (41_header.md R114; decision D10 for the flag). -/
def Obligations.HeaderRoundTrip : Prop :=
  (∀ (s : State) (h : Header), HeaderInRange h → ∃ b : List Byte,
    exec (.henc h) s = .next { s with responses := s.responses ++ [.ok (.bytes b)] } ∧
    exec (.hdec b) s = .next { s with responses := s.responses ++ [.ok (.header h (decide (h.version ≠ 1)))] }) ∧
  ∀ (s : State) (b : List Byte), b.length = 19 → ∃ (h : Header) (vmis : Bool),
    exec (.hdec b) s = .next { s with responses := s.responses ++ [.ok (.header h vmis)] } ∧
    exec (.henc h) s = .next { s with responses := s.responses ++ [.ok (.bytes b)] }

/-! ## The registry -/

/-- `LOOKUP`: four tags answer width and variant, every other byte is `UnsupportedPayloadType` (42_registry_dispatch.md
section 2; decisions D11 for tag 3 and D16 for the variant id). -/
def Obligations.LookupAnswersFourTags : Prop :=
  ∀ s : State,
    exec (.lookup 0) s = .next { s with responses := s.responses ++ [.ok (.registry 4 .move)] } ∧
    exec (.lookup 1) s = .next { s with responses := s.responses ++ [.ok (.registry 3 .rgb)] } ∧
    exec (.lookup 2) s = .next { s with responses := s.responses ++ [.ok (.registry 40 .data)] } ∧
    exec (.lookup 3) s = .next { s with responses := s.responses ++ [.ok (.registry 10 .loc)] } ∧
    ∀ tag : Byte, 4 ≤ tag.toNat →
      exec (.lookup tag) s = .next { s with responses := s.responses ++ [.error .unsupportedPayloadType] }

/-- Width consistency: every row's width is the sum of its descriptor list's lengths and the frame table's lengths are
`20 + w`, and the header list covers 19 bytes (42_registry_dispatch.md R128, 70_reset_and_hazards.md R222,
30_encoding.md R71; decision D11 for row 3). -/
def Obligations.WidthsAreConsistent : Prop :=
  (∀ row ∈ registry, row.w = shapesWidth (bodyShapes row.vid)) ∧ shapesWidth headerShapes = 19 ∧
    frameRows.map (fun r => (r.matchByte, r.format, r.frameLength)) =
      registry.map (fun row => (row.tag, row.vid, 20 + row.w))

/-! ## The body variants -/

/-- The four `FIELDS` operations: each slot with its field's shape, unchecked; Lh2RawData's are its four records' in
order (43_body_variants.md R136, R138, R140, R142). -/
def Obligations.FieldsDescribeBodies : Prop :=
  ∀ s : State,
    let locFds : Lh2RawLocation → List FieldDescriptor := fun l =>
      [⟨.bits, l.bits, 8, .big, false⟩, ⟨.polynomialIndex, l.polynomialIndex, 1, .big, false⟩,
        ⟨.offset, l.offset, 1, .big, true⟩]
    (∀ m : MoveRaw, exec (.moveFields m) s = .next { s with responses := s.responses ++ [.ok (.descriptors
      [⟨.leftX, m.leftX, 1, .big, true⟩, ⟨.leftY, m.leftY, 1, .big, true⟩,
        ⟨.rightX, m.rightX, 1, .big, true⟩, ⟨.rightY, m.rightY, 1, .big, true⟩])] }) ∧
    (∀ c : RgbLed, exec (.rgbFields c) s = .next { s with responses := s.responses ++ [.ok (.descriptors
      [⟨.red, c.red, 1, .big, false⟩, ⟨.green, c.green, 1, .big, false⟩, ⟨.blue, c.blue, 1, .big, false⟩])] }) ∧
    (∀ l : Lh2RawLocation, exec (.locFields l) s =
      .next { s with responses := s.responses ++ [.ok (.descriptors (locFds l))] }) ∧
    ∀ d : Lh2RawData, exec (.dataFields d) s = .next { s with responses := s.responses ++ [.ok (.descriptors
      (locFds d.locs[0] ++ locFds d.locs[1] ++ locFds d.locs[2] ++ locFds d.locs[3]))] }

/-- `MOVE.DEC` and `RGB.DEC`: one byte a slot, signed for MoveRaw and unsigned for RgbLed; a shorter buffer is
`TruncatedBuffer` (43_body_variants.md sections 2 and 3; decision D12 for surplus bytes, log 13 for the signed reading,
G2). -/
def Obligations.MoveAndRgbDecode : Prop :=
  ∀ (s : State) (buf : List Byte),
    (4 ≤ buf.length → exec (.moveDec buf) s = .next { s with responses := s.responses ++ [.ok (.body (.move
      ⟨(buf.getD 0 0).toInt, (buf.getD 1 0).toInt, (buf.getD 2 0).toInt, (buf.getD 3 0).toInt⟩))] }) ∧
    (buf.length < 4 → exec (.moveDec buf) s = .next { s with responses := s.responses ++ [.error .truncatedBuffer] }) ∧
    (3 ≤ buf.length → exec (.rgbDec buf) s = .next { s with responses := s.responses ++ [.ok (.body (.rgb
      ⟨(buf.getD 0 0).toNat, (buf.getD 1 0).toNat, (buf.getD 2 0).toNat⟩))] }) ∧
    (buf.length < 3 → exec (.rgbDec buf) s = .next { s with responses := s.responses ++ [.error .truncatedBuffer] })

/-- `LOC.DEC` and `DATA.DEC`: eight bytes unsigned big-endian, one unsigned, one signed, once or at offsets 0, 10, 20, 30;
a shorter buffer is `TruncatedBuffer` (43_body_variants.md sections 4 and 5; decision D12 for surplus bytes, log 13 for
the signed reading, G2). -/
def Obligations.LocAndDataDecode : Prop :=
  ∀ (s : State) (buf : List Byte),
    let record : Nat → Lh2RawLocation := fun a =>
      ⟨be (memRead buf a 8), (buf.getD (a + 8) 0).toNat, (buf.getD (a + 9) 0).toInt⟩
    (10 ≤ buf.length →
      exec (.locDec buf) s = .next { s with responses := s.responses ++ [.ok (.body (.loc (record 0)))] }) ∧
    (buf.length < 10 → exec (.locDec buf) s = .next { s with responses := s.responses ++ [.error .truncatedBuffer] }) ∧
    (40 ≤ buf.length → exec (.dataDec buf) s = .next { s with responses := s.responses ++
      [.ok (.body (.data ⟨#v[record 0, record 10, record 20, record 30]⟩))] }) ∧
    (buf.length < 40 → exec (.dataDec buf) s = .next { s with responses := s.responses ++ [.error .truncatedBuffer] })

/-- The composite rule: Lh2RawData's descriptors are its four records' descriptors in order, and its decode is the
independent `LOC.DEC` of four consecutive 10-byte chunks (43_body_variants.md R147). -/
def Obligations.DataIsFourRecords : Prop :=
  (∀ (s : State) (d : Lh2RawData) (f0 f1 f2 f3 : List FieldDescriptor),
    exec (.locFields d.locs[0]) s = .next { s with responses := s.responses ++ [.ok (.descriptors f0)] } →
    exec (.locFields d.locs[1]) s = .next { s with responses := s.responses ++ [.ok (.descriptors f1)] } →
    exec (.locFields d.locs[2]) s = .next { s with responses := s.responses ++ [.ok (.descriptors f2)] } →
    exec (.locFields d.locs[3]) s = .next { s with responses := s.responses ++ [.ok (.descriptors f3)] } →
    exec (.dataFields d) s =
      .next { s with responses := s.responses ++ [.ok (.descriptors (f0 ++ f1 ++ f2 ++ f3))] }) ∧
  ∀ (s : State) (c0 c1 c2 c3 : List Byte),
    c0.length = 10 → c1.length = 10 → c2.length = 10 → c3.length = 10 →
    ∃ l0 l1 l2 l3 : Lh2RawLocation,
      exec (.locDec c0) s = .next { s with responses := s.responses ++ [.ok (.body (.loc l0))] } ∧
      exec (.locDec c1) s = .next { s with responses := s.responses ++ [.ok (.body (.loc l1))] } ∧
      exec (.locDec c2) s = .next { s with responses := s.responses ++ [.ok (.body (.loc l2))] } ∧
      exec (.locDec c3) s = .next { s with responses := s.responses ++ [.ok (.body (.loc l3))] } ∧
      exec (.dataDec (c0 ++ c1 ++ c2 ++ c3)) s =
        .next { s with responses := s.responses ++ [.ok (.body (.data ⟨#v[l0, l1, l2, l3]⟩))] }

/-- Variant round trip, both ways, for all four variants (43_body_variants.md R148). -/
def Obligations.BodyRoundTrip : Prop :=
  (∀ x : Body, BodyInRange x → ∃ b : List Byte, encfields (bodyDescriptors x) = .ok b ∧
    b.length = shapesWidth (bodyShapes (bodyVariant x)) ∧ bodyDecode (bodyVariant x) b = .ok x) ∧
  ∀ (vid : Variant) (b : List Byte), b.length = shapesWidth (bodyShapes vid) →
    ∃ x : Body, bodyVariant x = vid ∧ bodyDecode vid b = .ok x ∧ encfields (bodyDescriptors x) = .ok b

/-- Bytes after the structure a decode operation reads never change its result (20_memory.md section 6, decision D12). -/
def Obligations.SurplusBytesIgnored : Prop :=
  ∀ (s : State) (buf more : List Byte) (r : Result), ∀ mk ∈ [Instr.hdec, .moveDec, .rgbDec, .locDec, .dataDec, .pdec],
    exec (mk buf) s = .next { s with responses := s.responses ++ [.ok r] } →
    exec (mk (buf ++ more)) s = .next { s with responses := s.responses ++ [.ok r] }

/-- Only the first 60 bytes of a buffer can matter to a decode operation (20_memory.md section 6, decision D17). -/
def Obligations.OnlySixtyBytesMatter : Prop :=
  ∀ (s : State) (buf : List Byte), ∀ mk ∈ [Instr.hdec, .moveDec, .rgbDec, .locDec, .dataDec, .pdec],
    exec (mk (buf.take 60)) s = exec (mk buf) s

/-! ## The payload -/

/-- `PENC` of a payload in range: `20 + w` bytes, the header's 19 bytes, then the tag, then the body's fields in order
(44_payload.md section 2; decision D11 for tag 3's width). -/
def Obligations.PencWritesFrame : Prop :=
  ∀ (s : State) (p : Payload), PayloadInRange p → ∃ hb bb : List Byte,
    exec (.henc p.header) s = .next { s with responses := s.responses ++ [.ok (.bytes hb)] } ∧
    encfields (bodyDescriptors p.body) = .ok bb ∧
    exec (.penc p.header (payloadTyp p) (bodySlots p.body)) s =
      .next { s with responses := s.responses ++ [.ok (.bytes (hb ++ [payloadTyp p] ++ bb))] } ∧
    hb.length = 19 ∧ bb.length = (match p.body with | .move _ => 4 | .rgb _ => 3 | .data _ => 40 | .loc _ => 10)

/-- `PENC` is the encoding of the consumer interface's descriptors: the header's, the tag's, the body's, whether it
succeeds or overflows (44_payload.md R168, R160). -/
def Obligations.PencEncodesConsumerFields : Prop :=
  ∀ p : Payload, payloadEncode p.header (payloadTyp p) (bodySlots p.body) =
    encfields (headerFields p.header ++ [tagDescriptor (payloadTyp p)] ++ bodyDescriptors p.body)

/-- `PENC` with a tag outside 0 to 3 is `UnsupportedPayloadType` whatever the header and slots hold (60_exceptions.md
section 2, decision D13; the slots are not looked at: log 11). -/
def Obligations.PencUnsupportedComesFirst : Prop :=
  ∀ (s : State) (h : Header) (typ : Byte) (x : List Int), 4 ≤ typ.toNat →
    exec (.penc h typ x) s = .next { s with responses := s.responses ++ [.error .unsupportedPayloadType] }

/-- `PENC` of a slot list whose count is not the tag's is refused (10_state.md section 2, decision D25, log 16; the count
of tag 3 is decision D11, log 7). -/
def Obligations.PencRefusesSlotCount : Prop :=
  ∀ (s : State) (h : Header) (x : List Int),
    (x.length ≠ 4 → exec (.penc h 0 x) s = .refused .slotCount) ∧
    (x.length ≠ 3 → exec (.penc h 1 x) s = .refused .slotCount) ∧
    (x.length ≠ 12 → exec (.penc h 2 x) s = .refused .slotCount) ∧
    (x.length ≠ 3 → exec (.penc h 3 x) s = .refused .slotCount)

/-- `PDEC` tests length 20, then the tag, then length `20 + w`, and the first failing test decides; no other decode
operation has a choice of kinds (60_exceptions.md R186). -/
def Obligations.PdecTestsInOrder : Prop :=
  (∀ (s : State) (buf : List Byte),
    (buf.length < 20 → exec (.pdec buf) s = .next { s with responses := s.responses ++ [.error .truncatedBuffer] }) ∧
    (20 ≤ buf.length → 4 ≤ (buf.getD 19 0).toNat →
      exec (.pdec buf) s = .next { s with responses := s.responses ++ [.error .unsupportedPayloadType] }) ∧
    ∀ row ∈ registry, 20 ≤ buf.length → buf.getD 19 0 = row.tag → buf.length < 20 + row.w →
      exec (.pdec buf) s = .next { s with responses := s.responses ++ [.error .truncatedBuffer] }) ∧
  ∀ (s : State) (buf : List Byte) (k : ErrorKind), ∀ mk ∈ [Instr.hdec, .moveDec, .rgbDec, .locDec, .dataDec],
    exec (mk buf) s = .next { s with responses := s.responses ++ [.error k] } → k = .truncatedBuffer

/-- `PDEC` on a long enough frame: the header and flag `HDEC` gives on the same bytes, and the body the tag's decoder
gives on the registry's slice (44_payload.md R166 with section 3; decisions D10, D11, D12). -/
def Obligations.PdecReadsFrame : Prop :=
  ∀ (s : State) (buf : List Byte), ∀ row ∈ registry, buf.getD 19 0 = row.tag → 20 + row.w ≤ buf.length →
    ∃ (h : Header) (vmis : Bool) (x : Body),
      exec (.hdec buf) s = .next { s with responses := s.responses ++ [.ok (.header h vmis)] } ∧
      bodyDecode row.vid (memRead buf 20 row.w) = .ok x ∧ bodyVariant x = row.vid ∧
      exec (.pdec buf) s = .next { s with responses := s.responses ++ [.ok (.payload ⟨h, x⟩ vmis)] }

/-- Payload round trip: encoding a payload in range and decoding the frame gives the payload back, and the flag is set
exactly when its version is not 1 (44_payload.md R165; decisions D10, D11, D23). -/
def Obligations.PayloadRoundTrip : Prop :=
  ∀ (s : State) (p : Payload), PayloadInRange p → ∃ b : List Byte,
    exec (.penc p.header (payloadTyp p) (bodySlots p.body)) s =
      .next { s with responses := s.responses ++ [.ok (.bytes b)] } ∧
    exec (.pdec b) s = .next { s with responses := s.responses ++ [.ok (.payload p (decide (p.header.version ≠ 1)))] }

/-- The converse: encoding a decoded payload gives the frame's own bytes without the ignored tail, and never an error
(44_payload.md R167; decision D11). -/
def Obligations.PayloadConverse : Prop :=
  ∀ (s : State) (b : List Byte) (p : Payload) (vmis : Bool),
    exec (.pdec b) s = .next { s with responses := s.responses ++ [.ok (.payload p vmis)] } →
    ∃ row ∈ registry, row.tag = payloadTyp p ∧ 20 + row.w ≤ b.length ∧
      exec (.penc p.header (payloadTyp p) (bodySlots p.body)) s =
        .next { s with responses := s.responses ++ [.ok (.bytes (b.take (20 + row.w)))] }

/-- Two different payloads never share a frame (44_payload.md R167). -/
def Obligations.FramesIdentifyPayloads : Prop :=
  ∀ (s : State) (p q : Payload) (b : List Byte),
    exec (.penc p.header (payloadTyp p) (bodySlots p.body)) s =
      .next { s with responses := s.responses ++ [.ok (.bytes b)] } →
    exec (.penc q.header (payloadTyp q) (bodySlots q.body)) s =
      .next { s with responses := s.responses ++ [.ok (.bytes b)] } → p = q

/-! ## Operation requests -/

/-- Every operation request in the operand domain is answered, and so is every raw frame; with
`StepRefusesOutOfDomain`, the operand domain is exactly what is answered (40_field_converter.md R90, R92, 10_state.md R22,
60_exceptions.md R192; decisions D6 and D25, D4 for the selects, D11 and log 7 for the count of `typ` 3; log 3 for the oldest
request, log 4 for frames, log 11 for an invalid `typ`, log 16). -/
def Obligations.StepAnswersRequestsInDomain : Prop :=
  (∀ (s : State) (p : Ports) (rest : List Request), s.requests = .op p :: rest → PortsInDomain p →
    ∃ r, step s = .next { requests := rest, responses := s.responses ++ [r] }) ∧
  ∀ (s : State) (buf : List Byte) (rest : List Request), s.requests = .frame buf :: rest →
    ∃ r, step s = .next { requests := rest, responses := s.responses ++ [r] }

/-- A port that an operation's row does not name has no influence: requests that agree on the select and on that row's
ports decode alike, and so step alike (30_encoding.md R73; decision D14 for unused slots, log 18). -/
def Obligations.UnnamedPortsAreIgnored : Prop :=
  ∀ p q : Ports, AgreeOnNamedPorts p q → decode (.op p) = decode (.op q) ∧
    ∀ s : State, step { s with requests := .op p :: s.requests } = step { s with requests := .op q :: s.requests }

end
end

