-- ==== Sys2Proof/Laws/Bytes.lean ====
section
/-! SUPPORT. Byte sequences: the two readings, the radix-256 digits, reads of slices (00_scope.md R12). -/

namespace Sys2Proof.Machine

theorem be_lt (b : List Byte) : be b < 256 ^ b.length := by
  induction b with
  | nil => simp [be]
  | cons x xs ih =>
    have hx : x.toNat < 256 := x.isLt
    have h : x.toNat * 256 ^ xs.length ≤ 255 * 256 ^ xs.length := Nat.mul_le_mul_right _ (by omega)
    simp only [be, List.length_cons, pow_succ]
    omega

theorem be_append (a b : List Byte) : be (a ++ b) = be a * 256 ^ b.length + be b := by
  induction a with
  | nil => simp [be]
  | cons x xs ih => simp only [List.cons_append, be, ih, List.length_append, pow_add]; ring

theorem be_reverse (b : List Byte) : be b.reverse = le b := by
  induction b with
  | nil => rfl
  | cons x xs ih => simp [be_append, be, le, ih]; ring

/-- Two byte sequences of one length with one big-endian reading are equal. -/
theorem be_inj {a b : List Byte} (hl : a.length = b.length) (h : be a = be b) : a = b := by
  induction a generalizing b with
  | nil => cases b with
    | nil => rfl
    | cons y ys => simp at hl
  | cons x xs ih =>
    cases b with
    | nil => simp at hl
    | cons y ys =>
      have hl' : xs.length = ys.length := by simpa using hl
      have hx := be_lt xs
      have hy := be_lt ys
      simp only [be, hl'] at h
      rw [hl'] at hx
      have hp : 0 < 256 ^ ys.length := by positivity
      have hxy : x.toNat = y.toNat := by
        have := congrArg (· / 256 ^ ys.length) h
        simpa [Nat.add_div_of_dvd_right (Dvd.intro_left _ rfl), Nat.mul_div_cancel _ hp, Nat.div_eq_of_lt hx,
          Nat.div_eq_of_lt hy] using this
      have : be xs = be ys := by rw [hxy] at h; omega
      rw [BitVec.eq_of_toNat_eq hxy, ih hl' this]

@[simp] theorem bigEndianBytes_length (u n : Nat) : (bigEndianBytes u n).length = n := by
  simp [bigEndianBytes]

theorem bigEndianBytes_succ (u n : Nat) :
    bigEndianBytes u (n + 1) = BitVec.ofNat 8 (u / 256 ^ n % 256) :: bigEndianBytes u n := by
  simp only [bigEndianBytes, List.range_succ_eq_map, List.map_cons, List.map_map]
  congr 1
  apply List.map_congr_left
  intro i hi
  have : n + 1 - 1 - (i + 1) = n - 1 - i := by omega
  simp only [Function.comp, Nat.succ_eq_add_one, this]

/-- The digits read back as the number, modulo the width. -/
theorem be_bigEndianBytes (u n : Nat) : be (bigEndianBytes u n) = u % 256 ^ n := by
  induction n with
  | zero => simp [bigEndianBytes, be, Nat.mod_one]
  | succ n ih =>
    rw [bigEndianBytes_succ, be, ih, bigEndianBytes_length]
    have : (BitVec.ofNat 8 (u / 256 ^ n % 256)).toNat = u / 256 ^ n % 256 := by
      simp
    rw [this, pow_succ, Nat.mod_mul]
    ring

/-- The digits of a sequence's own reading are the sequence. -/
theorem bigEndianBytes_be (b : List Byte) : bigEndianBytes (be b) b.length = b :=
  be_inj (by simp) (by rw [be_bigEndianBytes, Nat.mod_eq_of_lt (be_lt b)])

theorem pow_256 (n : Nat) : 256 ^ n = 2 ^ (8 * n) := by rw [pow_mul]; norm_num

@[simp] theorem be_singleton (x : Byte) : be [x] = x.toNat := by simp [be]

theorem memRead_length (buf : List Byte) (a n : Nat) (h : a + n ≤ buf.length) : (memRead buf a n).length = n := by
  simp [memRead]; omega

theorem memRead_one (buf : List Byte) (a : Nat) (h : a < buf.length) : memRead buf a 1 = [buf.getD a 0] := by
  simp only [memRead, List.drop_eq_getElem_cons h, List.take_succ_cons, List.take_zero, List.getD_eq_getElem _ _ h]

theorem memRead_append (buf more : List Byte) (a n : Nat) (h : a + n ≤ buf.length) :
    memRead (buf ++ more) a n = memRead buf a n := by
  simp only [memRead]
  rw [List.drop_append_of_le_length (by omega), List.take_append_of_le_length (by simp; omega)]

theorem memRead_take (buf : List Byte) (m a n : Nat) (h : a + n ≤ m) : memRead (buf.take m) a n = memRead buf a n := by
  simp only [memRead, List.drop_take, List.take_take]
  congr 1; omega

/-- A read of a slice is a read of the buffer. -/
theorem memRead_memRead (buf : List Byte) (a n c m : Nat) (h : c + m ≤ n) :
    memRead (memRead buf a n) c m = memRead buf (a + c) m := by
  simp only [memRead, List.drop_take, List.take_take, List.drop_drop]
  congr 1; omega

/-- The three writes of a frame give the plain concatenation (20_memory.md R52). -/
theorem memWrite_three (hb tb bb : List Byte) (h : hb.length = 19) (ht : tb.length = 1) :
    memWrite (memWrite (memWrite [] 0 hb) 19 tb) 20 bb = hb ++ tb ++ bb := by
  have h0 : memWrite [] 0 hb = hb := by simp [memWrite]
  have h1 : memWrite hb 19 tb = hb ++ tb := by
    rw [memWrite, List.take_of_length_le (by omega), List.drop_eq_nil_of_le (by omega), List.append_nil]
  rw [h0, h1, memWrite, List.take_of_length_le (by simp; omega), List.drop_eq_nil_of_le (by simp; omega),
    List.append_nil]

theorem memRead_succ (buf : List Byte) (a n : Nat) (h : a < buf.length) : memRead buf a (n + 1) = byteAt buf a ::
    memRead buf (a + 1) n := by
  simp only [memRead, List.drop_eq_getElem_cons h, List.take_succ_cons, byteAt, List.getD_eq_getElem _ _ h]

theorem memRead_zero (buf : List Byte) (a : Nat) : memRead buf a 0 = [] := by simp [memRead]

theorem memRead_split (buf : List Byte) (a n m : Nat) : memRead buf a n ++ memRead buf (a + n) m =
    memRead buf a (n + m) := by
  simp only [memRead, ← List.drop_drop]; rw [List.take_add]

/-- A byte written is read back at its place (20_memory.md R52). -/
theorem memRead_memWrite (out v : List Byte) (a : Nat) (h : a ≤ out.length) :
    memRead (memWrite out a v) a v.length = v := by
  have ha : (out.take a).length = a := by simp [h]
  rw [memRead, memWrite, List.append_assoc]
  conv_lhs => rw [← ha]
  simp

/-- A write leaves every byte before it alone. -/
theorem memWrite_before (out v : List Byte) (a i : Nat) (h : a ≤ out.length) (hi : i < a) :
    (memWrite out a v).getD i 0 = out.getD i 0 := by
  have hl : i < (out.take a).length := by simp; omega
  simp only [memWrite, List.append_assoc, List.getD_eq_getElem?_getD, List.getElem?_append_left hl,
    List.getElem?_take_of_lt hi]

/-- A write leaves every byte after it alone. -/
theorem memWrite_after (out v : List Byte) (a i : Nat) (h : a ≤ out.length) (hi : a + v.length ≤ i) :
    (memWrite out a v).getD i 0 = out.getD i 0 := by
  have hl : (out.take a ++ v).length = a + v.length := by simp [h]
  simp only [memWrite, List.getD_eq_getElem?_getD]
  rw [List.getElem?_append_right (by omega), hl, List.getElem?_drop]
  congr 2
  omega

/-- A buffer is its length and its bytes: equal memories are equal data (log 21). -/
theorem buffer_ext {a b : List Byte} (hl : a.length = b.length) (h : ∀ i, a.getD i 0 = b.getD i 0) : a = b := by
  refine List.ext_getElem hl fun i h1 h2 => ?_
  have := h i
  rwa [List.getD_eq_getElem _ _ h1, List.getD_eq_getElem _ _ h2] at this

end Sys2Proof.Machine
end

