-- ==== Sys2Proof/Laws/State.lean ====
section
/-! SUPPORT. One lemma per field and update of State, and what finishing a transaction can do. -/

namespace Sys2Proof.Machine

@[simp] theorem deliver_requests (r : Response) (s : State) : (deliver r s).requests = s.requests := rfl

@[simp] theorem deliver_responses (r : Response) (s : State) : (deliver r s).responses = s.responses ++ [r] := rfl

@[simp] theorem raiseError_requests (k : ErrorKind) (s : State) : (raiseError k s).requests = s.requests := rfl

@[simp] theorem raiseError_responses (k : ErrorKind) (s : State) :
    (raiseError k s).responses = s.responses ++ [.error k] := rfl

@[simp] theorem withFetchWord_requests (s : State) (nbits w : Nat) :
    (s.withFetchWord nbits w).requests = tableRequest nbits w :: s.requests := rfl

@[simp] theorem withFetchWord_responses (s : State) (nbits w : Nat) :
    (s.withFetchWord nbits w).responses = s.responses := rfl

@[simp] theorem finish_ok (r : Result) (s : State) : finish (.ok r) s = .next (deliver (.ok r) s) := rfl

@[simp] theorem finish_error (k : ErrorKind) (s : State) : finish (.error k) s = .next (raiseError k s) := rfl

/-- The response an outcome is delivered as. -/
def responseOf : Except ErrorKind Result → Response
  | .ok r => .ok r
  | .error k => .error k

/-- Finishing always answers a next state that differs by the one response. -/
theorem finish_eq (o : Except ErrorKind Result) (s : State) : finish o s = .next (deliver (responseOf o) s) := by
  cases o <;> rfl

theorem finish_next_iff (o : Except ErrorKind Result) (s t : State) :
    finish o s = .next t ↔ t = deliver (responseOf o) s := by
  rw [finish_eq, Host.Outcome.next.injEq]
  exact eq_comm

theorem deliver_injective {r q : Response} {s : State} (h : deliver r s = deliver q s) : r = q := by
  have := congrArg State.responses h
  simpa using this

@[simp] theorem takeRequest_nil (responses : List Response) :
    takeRequest { requests := [], responses := responses } = none := rfl

@[simp] theorem takeRequest_cons (r : Request) (rest : List Request) (responses : List Response) :
    takeRequest { requests := r :: rest, responses := responses } =
      some (r, { requests := rest, responses := responses }) := rfl

end Sys2Proof.Machine
end

