-- ==== Sys2Proof/Laws/Fields.lean ====
section
/-! SUPPORT. The field converter, its list helpers and the lookup: one lemma each for what they can answer
(40_field_converter.md R91, R92, R99, R100; 42_registry_dispatch.md R126). -/

namespace Sys2Proof.Machine

/-- The range test is the range of 40_field_converter.md R93. -/
theorem representable_iff (v : Int) (n : Nat) (g : Bool) : representable v n g = true ↔ ValueFits v n g := by
  cases g <;> simp [representable, ValueFits]

theorem fenc_of_fits {v : Int} {n : Nat} {g : Bool} (e : Endian) (h : ValueFits v n g) :
    fenc v n e g = .ok (inOrder e (bigEndianBytes (v % ((2 ^ (8 * n) : Nat) : Int)).toNat n)) := by
  rw [fenc, if_pos ((representable_iff v n g).mpr h)]

theorem fenc_of_not_fits {v : Int} {n : Nat} {g : Bool} (e : Endian) (h : ¬ ValueFits v n g) :
    fenc v n e g = .error .fieldOverflow := by
  rw [fenc, if_neg (mt (representable_iff v n g).mp h)]

/-- All that `fenc` can answer. -/
theorem fenc_cases (v : Int) (n : Nat) (e : Endian) (g : Bool) :
    (ValueFits v n g ∧ ∃ b, fenc v n e g = .ok b ∧ b.length = n) ∨
      (¬ ValueFits v n g ∧ fenc v n e g = .error .fieldOverflow) := by
  by_cases h : ValueFits v n g
  · exact .inl ⟨h, _, fenc_of_fits e h, by cases e <;> simp [inOrder]⟩
  · exact .inr ⟨h, fenc_of_not_fits e h⟩

@[simp] theorem inOrder_length (e : Endian) (b : List Byte) : (inOrder e b).length = b.length := by
  cases e <;> simp [inOrder]

/-- Reading the pattern of bytes laid in order is the big-endian reading. -/
theorem patternOf_inOrder (e : Endian) (b : List Byte) : patternOf e (inOrder e b) = be b := by
  cases e with
  | big => rfl
  | little => rw [inOrder, patternOf, ← be_reverse, List.reverse_reverse]

theorem patternOf_eq_be (e : Endian) (b : List Byte) : patternOf e b = be (inOrder e b) := by
  cases e with
  | big => rfl
  | little => rw [inOrder, patternOf, be_reverse]

theorem inOrder_inOrder (e : Endian) (b : List Byte) : inOrder e (inOrder e b) = b := by
  cases e <;> simp [inOrder]

theorem patternOf_lt (e : Endian) (b : List Byte) : patternOf e b < 2 ^ (8 * b.length) := by
  rw [patternOf_eq_be, ← pow_256, ← inOrder_length e b]
  exact be_lt _

theorem two_pow_half {n : Nat} (h : 1 ≤ n) : 2 ^ (8 * n) = 2 * 2 ^ (8 * n - 1) := by
  rw [← pow_succ']; congr 1; omega

/-- The single-byte reading is the byte. -/
theorem fdec_one_unsigned (x : Byte) : fdec [x] 1 .big false = x.toNat := by
  simp [fdec, patternOf, zext]

theorem fdec_one_signed (x : Byte) : fdec [x] 1 .big true = x.toInt := by
  have hx := x.isLt
  simp only [fdec, patternOf, be_singleton, sext, BitVec.toInt, if_true]
  split <;> split <;> simp_all <;> omega

/-- All that `encfields` can answer. -/
theorem encfields_cases (fs : List FieldDescriptor) :
    ((∀ f ∈ fs, ValueFits f.value f.length f.signed) ∧
        ∃ b, encfields fs = .ok b ∧ b.length = (fs.map (·.length)).sum) ∨
      ((∃ f ∈ fs, ¬ ValueFits f.value f.length f.signed) ∧ encfields fs = .error .fieldOverflow) := by
  induction fs with
  | nil => exact .inl ⟨by simp, [], rfl, rfl⟩
  | cons f fs ih =>
    obtain ⟨hf, b, hb, hbl⟩ | ⟨hf, hb⟩ := fenc_cases f.value f.length f.endianness f.signed
    · obtain ⟨hs, c, hc, hcl⟩ | ⟨hs, hc⟩ := ih
      · exact .inl ⟨by simpa using ⟨hf, hs⟩, b ++ c, by simp [encfields, hb, hc], by simp [hbl, hcl]⟩
      · obtain ⟨f', hf', hn⟩ := hs
        exact .inr ⟨⟨f', by simp [hf'], hn⟩, by simp [encfields, hb, hc]⟩
    · exact .inr ⟨⟨f, by simp, hf⟩, by simp [encfields, hb]⟩

/-- Encoding a concatenation is encoding its parts, the first failure winning. -/
theorem encfields_append (fs gs : List FieldDescriptor) :
    encfields (fs ++ gs) = (encfields fs).bind fun b => (encfields gs).map fun c => b ++ c := by
  induction fs with
  | nil => cases h : encfields gs <;> simp [encfields, h, Except.bind, Except.map]
  | cons f fs ih =>
    simp only [List.cons_append, encfields, ih]
    cases fenc f.value f.length f.endianness f.signed with
    | error k => rfl
    | ok b => cases encfields fs with
      | error k => rfl
      | ok c => cases encfields gs <;> simp [Except.bind, Except.map]

/-- The lookup, case by case: the four rows, and every other byte. -/
theorem registryLookup_cases (tag : Byte) :
    (tag = 0 ∧ registryLookup tag = .ok ⟨0, 4, .move⟩) ∨ (tag = 1 ∧ registryLookup tag = .ok ⟨1, 3, .rgb⟩) ∨
      (tag = 2 ∧ registryLookup tag = .ok ⟨2, 40, .data⟩) ∨ (tag = 3 ∧ registryLookup tag = .ok ⟨3, 10, .loc⟩) ∨
      (4 ≤ tag.toNat ∧ registryLookup tag = .error .unsupportedPayloadType) := by
  revert tag; decide

/-- `N_LOC` records, one by one. -/
theorem records_cases {α : Type} (v : Vector α 4) : ∃ a b c d, v = #v[a, b, c, d] := by
  rcases v with ⟨⟨l⟩, h⟩
  match l, h with
  | [a, b, c, d], _ => exact ⟨a, b, c, d, rfl⟩

theorem mapEach_four {α β : Type} (f : α → β) (a b c d : α) : mapEach f #v[a, b, c, d] = #v[f a, f b, f c, f d] := rfl

/-- A Lh2RawData body is its four records. -/
theorem data_cases (d : Lh2RawData) : ∃ l0 l1 l2 l3, d = ⟨#v[l0, l1, l2, l3]⟩ := by
  rcases d with ⟨locs⟩
  obtain ⟨l0, l1, l2, l3, rfl⟩ := records_cases locs
  exact ⟨l0, l1, l2, l3, rfl⟩

/-- The descriptors of a data body are those of the repeated list (43_body_variants.md R141, R142). -/
theorem bodyDescriptors_eq (b : Body) :
    bodyDescriptors b = describeAll (bodyShapes (bodyVariant b)) (bodySlots b) := by
  cases b with
  | data d => obtain ⟨l0, l1, l2, l3, rfl⟩ := data_cases d; rfl
  | _ => rfl

/-- The length test (40_field_converter.md R90). -/
theorem lengthOk_iff (n : Nat) : lengthOk n = true ↔ 1 ≤ n ∧ n ≤ 8 := decide_eq_true_iff

/-- Digit `i` of the big-endian bytes. -/
theorem bigEndianBytes_getD (u n i : Nat) (h : i < n) : ((bigEndianBytes u n).getD i 0).toNat =
    u / 256 ^ (n - 1 - i) % 256 := by
  simp [bigEndianBytes, List.getD, h]

/-- The big-endian reading as a sum by place. -/
theorem be_sum (b : List Byte) : be b = ∑ i ∈ Finset.range b.length, (b.getD i 0).toNat * 256 ^ (b.length - 1 - i) :=
    by
  induction b with
  | nil => simp [be]
  | cons x xs ih =>
    rw [List.length_cons, Finset.sum_range_succ', be, ih, add_comm]
    congr 1
    apply Finset.sum_congr rfl
    intro i hi
    have : xs.length + 1 - 1 - (i + 1) = xs.length - 1 - i := by omega
    rw [this, List.getD_cons_succ]

/-- The little-endian reading as a sum by place. -/
theorem le_sum (b : List Byte) : le b = ∑ i ∈ Finset.range b.length, (b.getD i 0).toNat * 256 ^ i := by
  induction b with
  | nil => simp [le]
  | cons x xs ih =>
    rw [List.length_cons, Finset.sum_range_succ', le, ih, add_comm, Finset.mul_sum]
    congr 1
    · apply Finset.sum_congr rfl
      intro i hi
      simp [pow_succ]; ring
    · simp

/-- The pattern as a sum by place, in either order. -/
theorem patternOf_sum (e : Endian) (b : List Byte) (n : Nat) (h : b.length = n) : patternOf e b =
    ∑ i ∈ Finset.range n, (b.getD i 0).toNat * 256 ^ (match e with | .big => n - 1 - i | .little => i) := by
  subst h; cases e
  · exact be_sum b
  · exact le_sum b

/-- What `fdec` gives fits its field (40_field_converter.md R94). -/
theorem fdec_fits (b : List Byte) (n : Nat) (e : Endian) (g : Bool) (h1 : 1 ≤ n) (hb : b.length = n) :
    ValueFits (fdec b n e g) n g := by
  have hlt := patternOf_lt e b
  rw [hb] at hlt
  have h2 := two_pow_half h1
  have hp : (0:Int) < 2 ^ (8 * n - 1) := by positivity
  have h2' : ((2:Int) ^ (8 * n)) = 2 * 2 ^ (8 * n - 1) := by exact_mod_cast h2
  have hlt' : ((patternOf e b : Nat) : Int) < 2 ^ (8 * n) := by exact_mod_cast hlt
  cases g
  · simp only [ValueFits, fdec, zext, Bool.false_eq_true, if_false]
    exact ⟨by positivity, hlt'⟩
  · simp only [ValueFits, fdec, sext, if_true]
    split
    · next h =>
      have h' : (2:Int) ^ (8 * n - 1) ≤ (patternOf e b : Int) := by exact_mod_cast h
      push_cast
      omega
    · next h =>
      have h' : (patternOf e b : Int) < (2:Int) ^ (8 * n - 1) := by exact_mod_cast (Nat.lt_of_not_le h)
      omega

/-- What `fdec` gives is its pattern modulo the width. -/
theorem fdec_emod (b : List Byte) (n : Nat) (e : Endian) (g : Bool) (hb : b.length = n) :
    (fdec b n e g) % ((2 ^ (8 * n) : Nat) : Int) = patternOf e b := by
  have hlt := patternOf_lt e b
  rw [hb] at hlt
  have : ((patternOf e b : Nat) : Int) % ((2 ^ (8 * n) : Nat) : Int) = patternOf e b :=
      Int.emod_eq_of_lt (by positivity) (by exact_mod_cast hlt)
  cases g
  · simpa [fdec, zext] using this
  · simp only [fdec, sext, if_true]
    split
    · rw [Int.sub_emod_right]; exact this
    · exact this

/-- Values that fit are told apart modulo the width. -/
theorem valueFits_emod_inj {v w : Int} {n : Nat} {g : Bool} (h1 : 1 ≤ n) (hv : ValueFits v n g) (hw :
    ValueFits w n g) (h : v % ((2 ^ (8 * n) : Nat) : Int) = w % ((2 ^ (8 * n) : Nat) : Int)) : v = w := by
  have h2' : (((2 ^ (8 * n) : Nat)) : Int) = 2 * 2 ^ (8 * n - 1) := by exact_mod_cast two_pow_half h1
  have hp : (0:Int) < 2 ^ (8 * n - 1) := by positivity
  have hd : ((2 ^ (8 * n) : Nat) : Int) ∣ v - w :=
      Int.emod_eq_emod_iff_emod_sub_eq_zero.mp h |> Int.dvd_of_emod_eq_zero
  rw [h2'] at hd
  have hlt : |v - w| < 2 * 2 ^ (8 * n - 1) := by
    rw [abs_lt]
    cases g
    · simp only [ValueFits, Bool.false_eq_true, if_false] at hv hw
      have : ((2:Int) ^ (8 * n)) = 2 * 2 ^ (8 * n - 1) := by exact_mod_cast two_pow_half h1
      omega
    · simp only [ValueFits, if_true] at hv hw
      omega
  have := Int.eq_zero_of_abs_lt_dvd hd hlt
  omega

/-- Encoding one more shape and value. -/
theorem encfields_describe_cons (d : FieldShape) (ds : List FieldShape) (v : Int) (vs : List Int) :
    encfields (describeAll (d :: ds) (v :: vs)) =
      (fenc v d.length d.endianness d.signed).bind fun b => (encfields (describeAll ds vs)).map fun bs => b ++ bs :=
          by
  change encfields (describe d v :: describeAll ds vs) = _
  simp only [encfields, describe]
  cases fenc v d.length d.endianness d.signed with
  | error k => rfl
  | ok b => cases encfields (describeAll ds vs) <;> rfl

/-- Decoding a concatenation of shapes. -/
theorem decfields_append (ds es : List FieldShape) (b : List Byte) : decfields (ds ++ es) b =
    decfields ds b ++ decfields es (b.drop (shapesWidth ds)) := by
  induction ds generalizing b with
  | nil => simp [decfields, shapesWidth]
  | cons d ds ih => simp [decfields, ih, shapesWidth]

/-- Decoding reads no byte past the shapes. -/
theorem decfields_take (ds : List FieldShape) (b : List Byte) (n : Nat) (h : shapesWidth ds ≤ n) :
    decfields ds (b.take n) = decfields ds b := by
  induction ds generalizing b n with
  | nil => simp [decfields]
  | cons d ds ih =>
    have : shapesWidth (d :: ds) = d.length + shapesWidth ds := by simp [shapesWidth]
    rw [decfields, decfields, List.take_take, Nat.min_eq_left (by omega), List.drop_take, ih _ _ (by omega)]

end Sys2Proof.Machine
end

