-- ==== Sys2Proof/Laws/Codec.lean ====
section
/-! SUPPORT. One lemma each for what the header, body, registry and payload functions can answer (41_header.md to
44_payload.md). -/

namespace Sys2Proof.Machine

/-! The constants of Config with their values, once: the lemmas below and their users unfold no constant. -/

theorem slotCount_eq (typ : Byte) : slotCount typ =
    if typ = 0 then some 4 else if typ = 1 then some 3 else if typ = 2 then some 12 else if typ = 3 then some 3
    else none := rfl

theorem registry_eq : registry = [⟨0, 4, .move⟩, ⟨1, 3, .rgb⟩, ⟨2, 40, .data⟩, ⟨3, 10, .loc⟩] := rfl

theorem headerShapes_eq : headerShapes = [⟨.destination, 8, .big, false⟩, ⟨.source, 8, .big, false⟩,
    ⟨.swarmId, 2, .big, false⟩, ⟨.version, 1, .big, false⟩] := rfl

theorem moveShapes_eq : moveShapes =
    [⟨.leftX, 1, .big, true⟩, ⟨.leftY, 1, .big, true⟩, ⟨.rightX, 1, .big, true⟩, ⟨.rightY, 1, .big, true⟩] := rfl

theorem rgbShapes_eq : rgbShapes =
    [⟨.red, 1, .big, false⟩, ⟨.green, 1, .big, false⟩, ⟨.blue, 1, .big, false⟩] := rfl

theorem locShapes_eq : locShapes =
    [⟨.bits, 8, .big, false⟩, ⟨.polynomialIndex, 1, .big, false⟩, ⟨.offset, 1, .big, true⟩] := rfl

theorem headerDecode_eq (buf : List Byte) : headerDecode buf =
    if buf.length < 19 then .error .truncatedBuffer
    else .ok (⟨fdec (memRead buf 0 8) 8 .big false, fdec (memRead buf 8 8) 8 .big false,
      fdec (memRead buf 16 2) 2 .big false, fdec (memRead buf 18 1) 1 .big false⟩,
      versionMismatch (fdec (memRead buf 18 1) 1 .big false)) := rfl

theorem moveDecode_eq (buf : List Byte) : moveDecode buf =
    if buf.length < 4 then .error .truncatedBuffer
    else .ok ⟨fdec (memRead buf 0 1) 1 .big true, fdec (memRead buf 1 1) 1 .big true,
      fdec (memRead buf 2 1) 1 .big true, fdec (memRead buf 3 1) 1 .big true⟩ := rfl

theorem rgbDecode_eq (buf : List Byte) : rgbDecode buf =
    if buf.length < 3 then .error .truncatedBuffer
    else .ok ⟨fdec (memRead buf 0 1) 1 .big false, fdec (memRead buf 1 1) 1 .big false,
      fdec (memRead buf 2 1) 1 .big false⟩ := rfl

theorem locDecode_eq (buf : List Byte) : locDecode buf =
    if buf.length < 10 then .error .truncatedBuffer
    else .ok ⟨fdec (memRead buf 0 8) 8 .big false, fdec (memRead buf 8 1) 1 .big false,
      fdec (memRead buf 9 1) 1 .big true⟩ := rfl

theorem locRecord_eq (buf : List Byte) : locRecord buf = ⟨fdec (memRead buf 0 8) 8 .big false,
    fdec (memRead buf 8 1) 1 .big false, fdec (memRead buf 9 1) 1 .big true⟩ := rfl

theorem chunkRecord_eq (buf : List Byte) (k : Nat) : chunkRecord buf k = locRecord (memRead buf (10 * k) 10) := rfl

theorem dataDecode_eq (buf : List Byte) : dataDecode buf =
    if buf.length < 40 then .error .truncatedBuffer
    else .ok ⟨#v[chunkRecord buf 0, chunkRecord buf 1, chunkRecord buf 2, chunkRecord buf 3]⟩ := rfl

theorem payloadEncode_steps (h : Header) (typ : Byte) (x : List Int) : payloadEncode h typ x = (do
    let row ← registryLookup typ
    let hb ← headerEncode h
    let tb ← encfields [tagDescriptor typ]
    let bb ← encfields (describeAll (bodyShapes row.vid) x)
    return memWrite (memWrite (memWrite [] 0 hb) 19 tb) 20 bb) := rfl

theorem payloadDecode_steps (buf : List Byte) : payloadDecode buf =
    if buf.length < 20 then .error .truncatedBuffer
    else do
      let (h, vmis) ← headerDecode (memRead buf 0 19)
      let row ← registryLookup (BitVec.ofInt 8 (fdec (memRead buf 19 1) 1 .big false))
      if buf.length < 20 + row.w then .error .truncatedBuffer
      else do
        let x ← bodyDecode row.vid (memRead buf 20 row.w)
        return (⟨h, x⟩, vmis) := rfl

theorem dataShapes_eq : dataShapes = locShapes ++ locShapes ++ locShapes ++ locShapes := rfl

theorem dataSlots_eq (l0 l1 l2 l3 : Lh2RawLocation) :
    dataSlots ⟨#v[l0, l1, l2, l3]⟩ = locSlots l0 ++ locSlots l1 ++ locSlots l2 ++ locSlots l3 := rfl

theorem dataDescriptors_eq (l0 l1 l2 l3 : Lh2RawLocation) : dataDescriptors ⟨#v[l0, l1, l2, l3]⟩ =
    locDescriptors l0 ++ locDescriptors l1 ++ locDescriptors l2 ++ locDescriptors l3 := rfl

theorem bodyInRange_data (l0 l1 l2 l3 : Lh2RawLocation) : BodyInRange (.data ⟨#v[l0, l1, l2, l3]⟩) ↔
    LocationInRange l0 ∧ LocationInRange l1 ∧ LocationInRange l2 ∧ LocationInRange l3 := Iff.rfl

theorem headerShapes_pos : ∀ d ∈ headerShapes, 1 ≤ d.length := by decide

theorem bodyShapes_pos (v : Variant) : ∀ d ∈ bodyShapes v, 1 ≤ d.length := by cases v <;> decide

/-- The header ranges are the fitting of its descriptors. -/
theorem headerInRange_iff (h : Header) : HeaderInRange h ↔ ∀ f ∈ headerFields h,
    ValueFits f.value f.length f.signed := by
  simp [HeaderInRange, headerFields, describeAll, describe, headerShapes_eq, headerSlots, ValueFits]

/-- The body ranges are the fitting of its descriptors. -/
theorem bodyInRange_iff (x : Body) : BodyInRange x ↔ ∀ f ∈ bodyDescriptors x, ValueFits f.value f.length f.signed := by
  cases x with
  | data d =>
    obtain ⟨l0, l1, l2, l3, rfl⟩ := data_cases d
    rw [bodyInRange_data, bodyDescriptors, dataDescriptors_eq]
    simp [LocationInRange, locDescriptors, describeAll, describe, locShapes_eq, locSlots, ValueFits]
    omega
  | _ => simp [BodyInRange, LocationInRange, bodyDescriptors, moveDescriptors, rgbDescriptors, locDescriptors,
      describeAll, describe, moveShapes_eq, rgbShapes_eq, locShapes_eq, moveSlots, rgbSlots, locSlots, ValueFits] <;> omega

theorem headerSlots_inj {a b : Header} (h : headerSlots a = headerSlots b) : a = b := by
  cases a; cases b; simpa [headerSlots] using h

theorem locSlots_inj {a b : Lh2RawLocation} (h : locSlots a = locSlots b) : a = b := by
  cases a; cases b; simpa [locSlots] using h

/-- A body is its variant and its slots. -/
theorem bodySlots_inj {a b : Body} (hv : bodyVariant a = bodyVariant b) (h : bodySlots a = bodySlots b) : a = b := by
  cases a <;> cases b <;> simp only [bodyVariant, reduceCtorEq] at hv <;> simp only [bodySlots] at h
  · next a b => cases a; cases b; simpa [moveSlots] using h
  · next a b => cases a; cases b; simpa [rgbSlots] using h
  · next a b =>
    obtain ⟨a0, a1, a2, a3, rfl⟩ := data_cases a
    obtain ⟨b0, b1, b2, b3, rfl⟩ := data_cases b
    rw [dataSlots_eq, dataSlots_eq] at h
    obtain ⟨h, h3⟩ := List.append_inj' h rfl
    obtain ⟨h, h2⟩ := List.append_inj' h rfl
    obtain ⟨h0, h1⟩ := List.append_inj' h rfl
    rw [locSlots_inj h0, locSlots_inj h1, locSlots_inj h2, locSlots_inj h3]
  · rw [locSlots_inj h]

/-- The slot counts, tag by tag; an invalid tag has none (10_state.md R22, 60_exceptions.md R187). -/
theorem slotsOk_iff (typ : Byte) (x : List Int) : slotsOk typ x = true ↔ (typ = 0 → x.length = 4) ∧
    (typ = 1 → x.length = 3) ∧ (typ = 2 → x.length = 12) ∧ (typ = 3 → x.length = 3) := by
  obtain ⟨rfl, _⟩ | ⟨rfl, _⟩ | ⟨rfl, _⟩ | ⟨rfl, _⟩ | ⟨h4, _⟩ := registryLookup_cases typ
  · change (x.length == 4) = true ↔ _; simp
  · change (x.length == 3) = true ↔ _; simp
  · change (x.length == 12) = true ↔ _; simp
  · change (x.length == 3) = true ↔ _; simp
  · have hn : slotCount typ = none := by revert h4; revert typ; decide
    simp only [slotsOk, hn, true_iff]
    refine ⟨?_, ?_, ?_, ?_⟩ <;> (rintro rfl; exact absurd h4 (by decide))

/-- A data body comes back from its slots. -/
theorem dataOfSlots_dataSlots (d : Lh2RawData) : dataOfSlots (dataSlots d) = some d := by
  obtain ⟨l0, l1, l2, l3, rfl⟩ := data_cases d; rfl

/-- A body has a slot for each of its descriptors. -/
theorem bodySlots_length (x : Body) : (bodySlots x).length = (bodyShapes (bodyVariant x)).length := by
  cases x with
  | data d => obtain ⟨l0, l1, l2, l3, rfl⟩ := data_cases d; rfl
  | _ => rfl

/-- The widths of a body's descriptors add up to its registry width. -/
theorem bodyDescriptors_width (x : Body) :
    ((bodyDescriptors x).map (·.length)).sum = shapesWidth (bodyShapes (bodyVariant x)) := by
  cases x with
  | data d => obtain ⟨l0, l1, l2, l3, rfl⟩ := data_cases d; rfl
  | _ => rfl

/-- The slot count of a payload record is its tag's. -/
theorem slotsOk_payload (p : Payload) : slotsOk (payloadTyp p) (bodySlots p.body) = true := by
  rcases p with ⟨h, x⟩
  cases x with
  | data d => obtain ⟨l0, l1, l2, l3, rfl⟩ := data_cases d; rfl
  | _ => rfl

/-- Encoding a header in range. -/
theorem headerEncode_ok {h : Header} (hr : HeaderInRange h) : ∃ b, headerEncode h = .ok b ∧ b.length = 19 := by
  obtain ⟨_, b, hb, hl⟩ | ⟨⟨f, hf, hn⟩, _⟩ := encfields_cases (headerFields h)
  · exact ⟨b, hb, hl⟩
  · exact absurd ((headerInRange_iff h).mp hr f hf) hn

/-- Encoding a header out of range. -/
theorem headerEncode_overflow {h : Header} (hr : ¬ HeaderInRange h) : headerEncode h = .error .fieldOverflow := by
  obtain ⟨hf, _⟩ | ⟨_, hb⟩ := encfields_cases (headerFields h)
  · exact absurd ((headerInRange_iff h).mpr hf) hr
  · exact hb

/-- Decoding 19 bytes or more: the slots, and the flag of their version. -/
theorem headerDecode_ok (buf : List Byte) (h : 19 ≤ buf.length) : ∃ hd, headerDecode buf = .ok (hd,
    versionMismatch hd.version) ∧
    headerSlots hd = decfields headerShapes (memRead buf 0 19) := by
  refine ⟨_, by rw [headerDecode_eq, if_neg (by omega)], ?_⟩
  simp [headerShapes_eq, decfields, headerSlots, memRead, List.take_take, List.drop_take]

/-- Decoding fewer than 19 bytes. -/
theorem headerDecode_short (buf : List Byte) (h : buf.length < 19) : headerDecode buf = .error .truncatedBuffer := by
  rw [headerDecode_eq, if_pos (by omega)]

/-- Decoding a location record from enough bytes. -/
theorem locDecode_ok (buf : List Byte) (h : 10 ≤ buf.length) : locDecode buf = .ok (locRecord buf) := by
  rw [locDecode_eq, if_neg (by omega), locRecord_eq]

/-- The slots of one record. -/
theorem locRecord_slots (buf : List Byte) : locSlots (locRecord buf) = decfields locShapes (memRead buf 0 10) := by
  simp [locRecord_eq, locShapes_eq, locSlots, decfields, memRead, List.take_take, List.drop_take]

/-- The slots of one chunk of a data body. -/
theorem chunkRecord_slots (buf : List Byte) (k : Nat) :
    locSlots (chunkRecord buf k) = decfields locShapes (memRead buf (10 * k) 10) := by
  rw [chunkRecord_eq, locRecord_slots, memRead_memRead _ _ _ _ _ (by omega), Nat.add_zero]

/-- Decoding a data body: its slots are its bytes' fields. -/
theorem dataDecode_ok (buf : List Byte) (h : 40 ≤ buf.length) : ∃ d, dataDecode buf = .ok d ∧
    dataSlots d = decfields dataShapes (memRead buf 0 40) := by
  refine ⟨_, by rw [dataDecode_eq, if_neg (by omega)], ?_⟩
  have w : shapesWidth locShapes = 10 := rfl
  have w2 : shapesWidth (locShapes ++ locShapes) = 20 := rfl
  have w3 : shapesWidth (locShapes ++ locShapes ++ locShapes) = 30 := rfl
  simp only [dataSlots_eq, dataShapes_eq, decfields_append, w, w2, w3, chunkRecord_slots, memRead, List.drop_take,
    List.drop_drop]
  congr 1; congr 1; congr 1
  all_goals rw [decfields_take _ _ _ (by simp [w]), decfields_take _ _ _ (by simp [w])]

/-- Decoding a body of any variant from enough bytes. -/
theorem bodyDecode_ok (vid : Variant) (buf : List Byte) (h : shapesWidth (bodyShapes vid) ≤ buf.length) : ∃ x,
    bodyDecode vid buf = .ok x ∧ bodyVariant x = vid ∧
    bodySlots x = decfields (bodyShapes vid) (memRead buf 0 (shapesWidth (bodyShapes vid))) := by
  cases vid with
  | move =>
    have h : 4 ≤ buf.length := h
    refine ⟨.move _, by rw [bodyDecode, moveDecode_eq, if_neg (by omega)]; rfl, rfl, ?_⟩
    simp [bodyShapes, moveShapes_eq, shapesWidth, bodySlots, moveSlots, decfields, memRead, List.take_take,
        List.drop_take]
  | rgb =>
    have h : 3 ≤ buf.length := h
    refine ⟨.rgb _, by rw [bodyDecode, rgbDecode_eq, if_neg (by omega)]; rfl, rfl, ?_⟩
    simp [bodyShapes, rgbShapes_eq, shapesWidth, bodySlots, rgbSlots, decfields, memRead, List.take_take, List.drop_take]
  | data =>
    obtain ⟨d, hd, hs⟩ := dataDecode_ok buf h
    exact ⟨.data d, by rw [bodyDecode, hd]; rfl, rfl, hs⟩
  | loc =>
    have h : 10 ≤ buf.length := h
    refine ⟨.loc _, by rw [bodyDecode, locDecode_eq, if_neg (by omega)]; rfl, rfl, ?_⟩
    simp [bodyShapes, locShapes_eq, shapesWidth, bodySlots, locSlots, decfields, memRead, List.take_take, List.drop_take]

/-- Decoding a body of any variant from too few bytes. -/
theorem bodyDecode_short (vid : Variant) (buf : List Byte) (h : buf.length < shapesWidth (bodyShapes vid)) :
    bodyDecode vid buf = .error .truncatedBuffer := by
  cases vid with
  | move => have h : buf.length < 4 := h; simp [bodyDecode, moveDecode_eq, h, Except.map]
  | rgb => have h : buf.length < 3 := h; simp [bodyDecode, rgbDecode_eq, h, Except.map]
  | data => have h : buf.length < 40 := h; simp [bodyDecode, dataDecode_eq, h, Except.map]
  | loc => have h : buf.length < 10 := h; simp [bodyDecode, locDecode_eq, h, Except.map]

theorem bind_ok {α β} (a : α) (f : α → Except ErrorKind β) : (Except.ok a >>= f) = f a := rfl

theorem bind_err {α β} (k : ErrorKind) (f : α → Except ErrorKind β) : (Except.error k >>= f) = .error k := rfl

/-- The tag field is its own byte. -/
theorem encfields_tag (t : Byte) : encfields [tagDescriptor t] = .ok [t] := by revert t; decide

/-- A registry row: its width is its shapes', and it is found under its tag. -/
theorem registry_row (row) (h : row ∈ registry) : row.w = shapesWidth (bodyShapes row.vid) ∧ registryLookup row.tag =
    .ok row ∧ variantTag row.vid = row.tag := by
  revert row; decide

/-- Tag and width of a registry row, row by row. -/
theorem registry_tag_width (row) (h : row ∈ registry) : @Eq Byte row.tag 0 ∧ row.w = 4 ∨ @Eq Byte row.tag 1 ∧ row.w = 3 ∨
    @Eq Byte row.tag 2 ∧ row.w = 40 ∨ @Eq Byte row.tag 3 ∧ row.w = 10 := by
  revert row; decide

/-- What a lookup finds is a row of that tag. -/
theorem registryLookup_ok {t row} (h : registryLookup t = .ok row) : row ∈ registry ∧ row.tag = t := by
  obtain ⟨rfl, hl⟩ | ⟨rfl, hl⟩ | ⟨rfl, hl⟩ | ⟨rfl, hl⟩ | ⟨_, hl⟩ :=
      registryLookup_cases t <;> rw [hl] at h <;> cases h <;> decide

/-- Every variant has its row. -/
theorem row_of_variant (v : Variant) : ∃ row ∈ registry, row.vid = v ∧ row.tag = variantTag v ∧ row.w =
    shapesWidth (bodyShapes v) ∧ registryLookup (variantTag v) = .ok row := by
  cases v
  exacts [⟨⟨0, 4, .move⟩, by decide⟩, ⟨⟨1, 3, .rgb⟩, by decide⟩, ⟨⟨2, 40, .data⟩, by decide⟩, ⟨⟨3, 10, .loc⟩,
      by decide⟩]

/-- Encoding a payload record: header, tag, body. -/
theorem payloadEncode_eq (p : Payload) : payloadEncode p.header (payloadTyp p) (bodySlots p.body) =
  (headerEncode p.header).bind fun hb => (encfields (bodyDescriptors p.body)).map fun bb => hb ++ [payloadTyp p] ++ bb := by
  obtain ⟨row, _, hv, _, _, hl⟩ := row_of_variant (bodyVariant p.body)
  rw [payloadEncode_steps, payloadTyp, hl, bind_ok, hv, ← bodyDescriptors_eq, encfields_tag]
  obtain ⟨_, hb, h1, h2⟩ | ⟨_, h1⟩ := encfields_cases (headerFields p.header)
  · rw [headerEncode, h1, bind_ok, bind_ok]
    have h2 : hb.length = 19 := h2
    cases encfields (bodyDescriptors p.body) with
    | error k => rfl
    | ok bb =>
      rw [bind_ok]
      simp only [Except.bind, Except.map]
      rw [memWrite_three _ _ _ h2 rfl]; rfl
  · rw [headerEncode, h1]; rfl

/-- Encoding under an invalid tag. -/
theorem payloadEncode_unsupported (h t x) (ht : 4 ≤ t.toNat) : payloadEncode h t x =
    .error .unsupportedPayloadType := by
  obtain ⟨rfl, _⟩ | ⟨rfl, _⟩ | ⟨rfl, _⟩ | ⟨rfl, _⟩ | ⟨_, hl⟩ := registryLookup_cases t
  · simp at ht
  · simp at ht
  · simp at ht
  · simp at ht
  · unfold payloadEncode; rw [hl]; rfl

theorem fdec_tag (x : Byte) : BitVec.ofInt 8 (fdec [x] 1 .big false) = x := by
  rw [fdec_one_unsigned]; simp

/-- Step 1 of `PDEC`. -/
theorem payloadDecode_short {buf : List Byte} (h : buf.length < 20) : payloadDecode buf = .error .truncatedBuffer :=
    by
  rw [payloadDecode_steps, if_pos h]

/-- Steps 2 to 5 of `PDEC`. -/
theorem payloadDecode_long {buf : List Byte} (h : 20 ≤ buf.length) : ∃ hd, headerDecode buf = .ok (hd,
    versionMismatch hd.version) ∧ payloadDecode buf =
   (registryLookup (buf.getD 19 0)).bind fun row => if buf.length < 20 + row.w then .error .truncatedBuffer else
      (bodyDecode row.vid (memRead buf 20 row.w)).map fun x => (⟨hd, x⟩, versionMismatch hd.version) := by
  obtain ⟨hd, h1, hs⟩ := headerDecode_ok buf (by omega)
  refine ⟨hd, h1, ?_⟩
  have h2 : headerDecode (memRead buf 0 19) = .ok (hd, versionMismatch hd.version) := by
    obtain ⟨hd', h1', hs'⟩ := headerDecode_ok (memRead buf 0 19) (by rw [memRead_length _ _ _ (by omega)])
    rw [memRead_memRead _ _ _ _ _ (by omega), ← hs] at hs'
    rw [h1', headerSlots_inj hs']
  rw [payloadDecode_steps, if_neg (by omega)]
  rw [h2, bind_ok, memRead_one _ _ (by omega)]
  simp only [fdec_tag]
  cases registryLookup (buf.getD 19 0) with
  | error k => rfl
  | ok row =>
    rw [bind_ok]
    simp only [Except.bind]
    by_cases hc : buf.length < 20 + row.w
    · simp [hc]
    · simp only [hc, if_false]
      cases bodyDecode row.vid (memRead buf 20 row.w) <;> rfl

/-- `PDEC` of a frame long enough for its tag. -/
theorem payloadDecode_ok_row {buf : List Byte} {row} (hr : row ∈ registry) (ht : buf.getD 19 0 = row.tag) (hl :
    20 + row.w ≤ buf.length) :
   ∃ hd x, headerDecode buf = .ok (hd, versionMismatch hd.version) ∧ bodyDecode row.vid (memRead buf 20 row.w) =
       .ok x ∧ bodyVariant x = row.vid ∧
     bodySlots x = decfields (bodyShapes row.vid) (memRead buf 20 row.w) ∧
     payloadDecode buf = .ok (⟨hd, x⟩, versionMismatch hd.version) := by
  obtain ⟨hd, h1, h2⟩ := payloadDecode_long (buf := buf) (by omega)
  obtain ⟨hw, hlk, _⟩ := registry_row row hr
  obtain ⟨x, hx, hv, hs⟩ :=
      bodyDecode_ok row.vid (memRead buf 20 row.w) (by rw [memRead_length _ _ _ (by omega)]; omega)
  rw [memRead_memRead _ _ _ _ _ (by omega), ← hw] at hs
  refine ⟨hd, x, h1, hx, hv, hs, ?_⟩
  rw [h2, ht, hlk]
  simp [Except.bind, Except.map, hx]; omega

/-- All the ways `PDEC` can go. -/
theorem payloadDecode_cases (buf : List Byte) :
   (buf.length < 20 ∧ payloadDecode buf = .error .truncatedBuffer) ∨
   (20 ≤ buf.length ∧ 4 ≤ (buf.getD 19 0).toNat ∧ payloadDecode buf = .error .unsupportedPayloadType) ∨
   (∃ row ∈ registry, 20 ≤ buf.length ∧ buf.getD 19 0 = row.tag ∧ buf.length < 20 + row.w ∧ payloadDecode buf =
       .error .truncatedBuffer) ∨
   (∃ row ∈ registry, buf.getD 19 0 = row.tag ∧ 20 + row.w ≤ buf.length) := by
  by_cases h : buf.length < 20
  · exact .inl ⟨h, payloadDecode_short h⟩
  · right
    obtain ⟨hd, h1, h2⟩ := payloadDecode_long (buf := buf) (by omega)
    cases hl : registryLookup (buf.getD 19 0) with
    | error k =>
      left
      obtain ⟨_, e⟩ | ⟨_, e⟩ | ⟨_, e⟩ | ⟨_, e⟩ | ⟨h4, e⟩ :=
          registryLookup_cases (buf.getD 19 0) <;> rw [e] at hl <;> cases hl
      exact ⟨by omega, h4, by rw [h2, e]; rfl⟩
    | ok row =>
      right
      obtain ⟨hm, ht⟩ := registryLookup_ok hl
      by_cases hw : buf.length < 20 + row.w
      · exact .inl ⟨row, hm, by omega, ht.symm, hw, by rw [h2, hl]; simp [Except.bind, hw]⟩
      · exact .inr ⟨row, hm, ht.symm, by omega⟩

/-- Slots that suit a valid tag are some body's. -/
theorem slots_body {t : Byte} {x : List Int} (h : slotsOk t x = true) (ht : t.toNat < 4) : ∃ b : Body, bodySlots b =
    x ∧ variantTag (bodyVariant b) = t := by
  have len3 : ∀ l : List Int, l.length = 3 → ∃ a b c, l = [a, b, c] := fun l hl => List.length_eq_three.mp hl
  obtain ⟨rfl, _⟩ | ⟨rfl, _⟩ | ⟨rfl, _⟩ | ⟨rfl, _⟩ | ⟨h4, _⟩ := registryLookup_cases t
  · have h : x.length = 4 := by simpa [slotsOk, slotCount_eq] using h
    match x, h with
    | [a, b, c, d], _ => exact ⟨.move ⟨a, b, c, d⟩, rfl, rfl⟩
  · have h : x.length = 3 := by simpa [slotsOk, slotCount_eq] using h
    match x, h with
    | [a, b, c], _ => exact ⟨.rgb ⟨a, b, c⟩, rfl, rfl⟩
  · have h : x.length = 12 := by simpa [slotsOk, slotCount_eq] using h
    match x, h with
    | [a, b, c, d, e, f, g, i, j, k, l, m], _ => exact ⟨.data ⟨#v[⟨a, b, c⟩, ⟨d, e, f⟩, ⟨g, i, j⟩, ⟨k, l, m⟩]⟩, rfl, rfl⟩
  · have h : x.length = 3 := by simpa [slotsOk, slotCount_eq] using h
    match x, h with
    | [a, b, c], _ => exact ⟨.loc ⟨a, b, c⟩, rfl, rfl⟩
  · omega

end Sys2Proof.Machine
end

