-- ==== Sys2Proof/Laws/Exec.lean ====
section
/-! SUPPORT. What an instruction can do, said once (60_exceptions.md R188, R192). -/

namespace Sys2Proof.Machine

/-- All that an instruction can do: answer one response that does not depend on the state, or refuse by name. -/
theorem exec_cases (i : Instr) : (∃ r, ∀ s : State, exec i s = .next (deliver r s)) ∧ i.violation = none ∨
    ∃ d, i.violation = some d ∧ ∀ s, exec i s = .refused (refusalOf d) := by
  cases i
  case fenc v n e g =>
    by_cases h : lengthOk n = true
    · exact .inl ⟨⟨_, fun s => by simp only [exec, execFenc, h, if_true]; exact finish_eq _ s⟩,
          by simp [Instr.violation, h]⟩
    · exact .inr ⟨.fieldLength, by simp [Instr.violation, h], fun s => by simp [exec, execFenc, h, refusalOf]⟩
  case fdec b n e g =>
    by_cases h : lengthOk n = true
    · by_cases hb : b.length = n
      · exact .inl ⟨⟨_, fun s => by simp only [exec, execFdec, h, hb, if_true]; exact finish_eq _ s⟩,
            by simp [Instr.violation, h, hb]⟩
      · exact .inr ⟨.byteCount, by simp [Instr.violation, h, hb], fun s => by simp [exec, execFdec, h, hb, refusalOf]⟩
    · exact .inr ⟨.fieldLength, by simp [Instr.violation, h], fun s => by simp [exec, execFdec, h, refusalOf]⟩
  case penc hd t x =>
    by_cases h : slotsOk t x = true
    · exact .inl ⟨⟨_, fun s => by simp only [exec, execPenc, h, if_true]; exact finish_eq _ s⟩,
          by simp [Instr.violation, h]⟩
    · exact .inr ⟨.slotCount, by simp [Instr.violation, h], fun s => by simp [exec, execPenc, h, refusalOf]⟩
  all_goals first | exact .inl ⟨⟨_, fun s => finish_eq _ s⟩, rfl⟩ | exact .inl ⟨⟨_, fun s => rfl⟩, rfl⟩

/-- An outcome is an error response exactly when it is that error. -/
theorem finish_err_iff (o : Except ErrorKind Result) (s : State) (k : ErrorKind) : finish o s =
    .next { s with responses := s.responses ++ [.error k] } ↔ o = .error k := by
  constructor
  · intro h
    rw [finish_next_iff] at h
    have := deliver_injective (r := .error k) (q := responseOf o) h
    cases o <;> simp_all [responseOf]
  · rintro rfl; rfl

end Sys2Proof.Machine
end

