-- ==== Sys2Proof/Laws/Frames.lean ====
section
/-! SUPPORT. Frames as bit fields and frames as bytes: the two readings agree (30_encoding.md R61, R62, R67, R69). -/

namespace Sys2Proof.Machine

/-! The constants of Config with their values, once. -/

theorem frameHeader_eq (buf : List Byte) :
    frameHeader buf = ⟨fieldBits buf 0 8, fieldBits buf 8 8, fieldBits buf 16 2, fieldBits buf 18 1⟩ := rfl

theorem frameLocation_eq (buf : List Byte) (a : Nat) :
    frameLocation buf a = ⟨fieldBits buf a 8, fieldBits buf (a + 8) 1, fieldBits buf (a + 9) 1⟩ := rfl

theorem frameHeaderBytes_eq (h : FrameHeader) : frameHeaderBytes h =
    fieldBytes 8 h.destination ++ fieldBytes 8 h.source ++ fieldBytes 2 h.swarmId ++ fieldBytes 1 h.version := rfl

theorem frameLocationBytes_eq (l : FrameLocation) : frameLocationBytes l =
    fieldBytes 8 l.bits ++ fieldBytes 1 l.polynomialIndex ++ fieldBytes 1 l.offset := rfl

theorem frameRows_eq : frameRows =
    [⟨0, 0xFF, .move, 24⟩, ⟨1, 0xFF, .rgb, 23⟩, ⟨2, 0xFF, .data, 60⟩, ⟨3, 0xFF, .loc, 30⟩] := rfl

theorem toNat_append_byte {n : Nat} (x : BitVec n) (y : Byte) : (x ++ y).toNat = x.toNat * 256 + y.toNat := by
  rw [BitVec.toNat_append, ← Nat.shiftLeft_add_eq_or_of_lt y.isLt, Nat.shiftLeft_eq]

/-- A field of one byte is that byte. -/
theorem fieldBits_one (buf : List Byte) (a : Nat) : fieldBits buf a 1 = byteAt buf a := by
  apply BitVec.eq_of_toNat_eq
  change ((0#0 : BitVec 0) ++ byteAt buf (a + 0)).toNat = _
  rw [toNat_append_byte]
  simp

/-- The tag of a frame is byte 19. -/
theorem frameTag_eq (buf : List Byte) : frameTag buf = byteAt buf 19 := fieldBits_one buf 19

theorem decodeFrame_eq (buf : List Byte) : decodeFrame buf =
    if buf.length < 20 then .error (.frameError .truncatedBuffer)
    else match frameRowOf (byteAt buf 19) with
      | none => .error (.frameError .unsupportedPayloadType)
      | some r => if buf.length < r.frameLength then .error (.frameError .truncatedBuffer)
        else .ok (frameInstr r.format buf) := by
  rw [← frameTag_eq]; rfl

/-- The one byte of a field of one byte. -/
theorem fieldBytes_one (x : Byte) : fieldBytes 1 x = [x] := by
  simp [fieldBytes, List.range_succ]

theorem framePrefix_eq (h : FrameHeader) (t : Byte) : framePrefix h t = frameHeaderBytes h ++ [t] := by
  rw [← fieldBytes_one]; rfl

/-- The fields of a frame at their offsets. -/
theorem frameInstr_eq (v : Variant) (buf : List Byte) : frameInstr v buf = (match v with
    | .move => .fMove (frameHeader buf) (byteAt buf 20) (byteAt buf 21) (byteAt buf 22) (byteAt buf 23)
    | .rgb => .fRgb (frameHeader buf) (byteAt buf 20) (byteAt buf 21) (byteAt buf 22)
    | .data => .fData (frameHeader buf).destination (frameHeader buf).source (frameHeader buf).swarmId
        (frameHeader buf).version #v[frameLocation buf 20, frameLocation buf 30, frameLocation buf 40,
          frameLocation buf 50]
    | .loc => .fLoc (frameHeader buf) (frameLocation buf 20)) := by
  cases v with
  | move => simp only [← fieldBits_one]; rfl
  | rgb => simp only [← fieldBits_one]; rfl
  | data => rfl
  | loc => rfl

/-- A frame's instruction is always in the operand domain. -/
theorem frameInstr_violation (v : Variant) (buf : List Byte) : (frameInstr v buf).violation = none := by
  rw [frameInstr_eq]; cases v <;> rfl

theorem encode_fMove (h : FrameHeader) (a b c d : BitVec 8) :
    encode (.fMove h a b c d) = .frame (frameHeaderBytes h ++ [0x00, a, b, c, d]) := by
  change Request.frame (framePrefix h 0 ++ (fieldBytes 1 a ++ (fieldBytes 1 b ++ (fieldBytes 1 c ++
    (fieldBytes 1 d ++ []))))) = _
  rw [framePrefix_eq, fieldBytes_one, fieldBytes_one, fieldBytes_one, fieldBytes_one, List.append_assoc]; rfl

theorem encode_fRgb (h : FrameHeader) (r g b : BitVec 8) :
    encode (.fRgb h r g b) = .frame (frameHeaderBytes h ++ [0x01, r, g, b]) := by
  change Request.frame (framePrefix h 1 ++ (fieldBytes 1 r ++ (fieldBytes 1 g ++ (fieldBytes 1 b ++ [])))) = _
  rw [framePrefix_eq, fieldBytes_one, fieldBytes_one, fieldBytes_one, List.append_assoc]; rfl

theorem encode_fData (d s w v) (l0 l1 l2 l3 : FrameLocation) : encode (.fData d s w v #v[l0, l1, l2, l3]) =
    .frame (frameHeaderBytes ⟨d, s, w, v⟩ ++ [0x02] ++ (frameLocationBytes l0 ++ (frameLocationBytes l1 ++
      (frameLocationBytes l2 ++ frameLocationBytes l3)))) := by
  change Request.frame (framePrefix ⟨d, s, w, v⟩ 2 ++ (_ ++ (_ ++ (_ ++ (_ ++ []))))) = _
  rw [framePrefix_eq, List.append_nil]

theorem encode_fLoc (h : FrameHeader) (l : FrameLocation) :
    encode (.fLoc h l) = .frame (frameHeaderBytes h ++ [0x03] ++ frameLocationBytes l) := by
  rw [← framePrefix_eq]; rfl

/-- A field is the big-endian reading of its bytes. -/
theorem fieldBits_toNat (buf : List Byte) (a n : Nat) (h : a + n ≤ buf.length) :
    (fieldBits buf a n).toNat = be (memRead buf a n) := by
  induction n with
  | zero => simp [fieldBits, memRead, be]
  | succ n ih =>
    rw [← memRead_split buf a n 1, be_append, memRead_one _ _ (by omega), ← ih (by omega)]
    change (fieldBits buf a n ++ byteAt buf (a + n)).toNat = _
    rw [toNat_append_byte]
    simp [byteAt]

/-- The bytes of a field are its radix-256 digits. -/
theorem fieldBytes_eq (n : Nat) (v : BitVec (8 * n)) : fieldBytes n v = bigEndianBytes v.toNat n := by
  refine List.map_congr_left fun i _ => ?_
  apply BitVec.eq_of_toNat_eq
  simp [BitVec.extractLsb'_toNat, Nat.shiftRight_eq_div_pow, pow_256]

theorem fieldBytes_length (n : Nat) (v : BitVec (8 * n)) : (fieldBytes n v).length = n := by simp [fieldBytes]

/-- The bytes of a field read from a buffer are the buffer's. -/
theorem fieldBytes_fieldBits (buf : List Byte) (a n : Nat) (h : a + n ≤ buf.length) :
    fieldBytes n (fieldBits buf a n) = memRead buf a n := by
  rw [fieldBytes_eq, fieldBits_toNat _ _ _ h]
  have := bigEndianBytes_be (memRead buf a n)
  rwa [memRead_length _ _ _ h] at this

/-- A field comes back from its bytes, wherever they stand. -/
theorem fieldBits_fieldBytes (n : Nat) (v : BitVec (8 * n)) (pre post : List Byte) :
    fieldBits (pre ++ (fieldBytes n v ++ post)) pre.length n = v := by
  have hl := fieldBytes_length n v
  have hr : memRead (pre ++ (fieldBytes n v ++ post)) pre.length n = fieldBytes n v := by
    rw [memRead, List.drop_left, List.take_left' hl]
  apply BitVec.eq_of_toNat_eq
  rw [fieldBits_toNat _ _ _ (by simp [hl]), hr, fieldBytes_eq, be_bigEndianBytes, pow_256, Nat.mod_eq_of_lt v.isLt]

/-- A signed byte field is its two's-complement value. -/
theorem signedField_byte (x : Byte) : signedField x = x.toInt := by
  have := fdec_one_signed x
  simpa [fdec, patternOf, signedField] using this

/-- `HDEC` of a frame is the header of its field patterns. -/
theorem headerDecode_frame (buf : List Byte) (h : 19 ≤ buf.length) : headerDecode buf =
    .ok (headerOfFrame (frameHeader buf), versionMismatch (headerOfFrame (frameHeader buf)).version) := by
  rw [headerDecode_eq, if_neg (by omega)]
  simp only [headerOfFrame, frameHeader_eq, unsignedField, fieldBits_toNat buf 0 8 (by omega),
      fieldBits_toNat buf 8 8 (by omega), fieldBits_toNat buf 16 2 (by omega), fieldBits_toNat buf 18 1 (by omega)]
  simp [fdec, patternOf, zext]

/-- The frame table and the registry agree on every tag byte. -/
theorem frameRowOf_cases (tag : Byte) : (∃ row, registryLookup tag = .ok row ∧ frameRowOf tag = some ⟨tag, 0xFF,
    row.vid, 20 + row.w⟩) ∨ (registryLookup tag = .error .unsupportedPayloadType ∧ frameRowOf tag = none) := by
  obtain ⟨rfl, hl⟩ | ⟨rfl, hl⟩ | ⟨rfl, hl⟩ | ⟨rfl, hl⟩ | ⟨h4, hl⟩ := registryLookup_cases tag
  · exact .inl ⟨_, hl, rfl⟩
  · exact .inl ⟨_, hl, rfl⟩
  · exact .inl ⟨_, hl, rfl⟩
  · exact .inl ⟨_, hl, rfl⟩
  · exact .inr ⟨hl, by revert h4; clear hl; revert tag; decide⟩

theorem frameHeaderBytes_length (h) : (frameHeaderBytes h).length = 19 := rfl

/-- The header fields come back from their bytes. -/
theorem frameHeader_bytes (h : FrameHeader) (rest : List Byte) : frameHeader (frameHeaderBytes h ++ rest) = h := by
  rcases h with ⟨d, s, w, v⟩
  have e0 := fieldBits_fieldBytes 8 d [] (fieldBytes 8 s ++ (fieldBytes 2 w ++ (fieldBytes 1 v ++ rest)))
  have e1 := fieldBits_fieldBytes 8 s (fieldBytes 8 d) (fieldBytes 2 w ++ (fieldBytes 1 v ++ rest))
  have e2 := fieldBits_fieldBytes 2 w (fieldBytes 8 d ++ fieldBytes 8 s) (fieldBytes 1 v ++ rest)
  have e3 := fieldBits_fieldBytes 1 v (fieldBytes 8 d ++ fieldBytes 8 s ++ fieldBytes 2 w) rest
  simp only [List.append_assoc, List.length_append, fieldBytes_length] at e0 e1 e2 e3
  simp only [frameHeader_eq, frameHeaderBytes_eq, List.append_assoc]
  congr 1

/-- A location record comes back from its bytes. -/
theorem frameLocation_bytes (l : FrameLocation) (pre post : List Byte) :
    frameLocation (pre ++ (frameLocationBytes l ++ post)) pre.length = l := by
  rcases l with ⟨b, p, o⟩
  have e0 := fieldBits_fieldBytes 8 b pre (fieldBytes 1 p ++ (fieldBytes 1 o ++ post))
  have e1 := fieldBits_fieldBytes 1 p (pre ++ fieldBytes 8 b) (fieldBytes 1 o ++ post)
  have e2 := fieldBits_fieldBytes 1 o (pre ++ fieldBytes 8 b ++ fieldBytes 1 p) post
  simp only [List.append_assoc, List.length_append, fieldBytes_length] at e0 e1 e2
  simp only [frameLocation_eq, frameLocationBytes_eq, List.append_assoc]
  congr 1

theorem frameLocationBytes_length (l : FrameLocation) : (frameLocationBytes l).length = 10 := rfl

/-- The bytes of the header fields of a frame are the frame's. -/
theorem frameHeaderBytes_frameHeader (buf : List Byte) (h : 19 ≤ buf.length) :
    frameHeaderBytes (frameHeader buf) = memRead buf 0 19 := by
  simp only [frameHeaderBytes_eq, frameHeader_eq]
  rw [fieldBytes_fieldBits _ _ _ (by omega), fieldBytes_fieldBits _ _ _ (by omega),
    fieldBytes_fieldBits _ _ _ (by omega), fieldBytes_fieldBits _ _ _ (by omega),
    memRead_split buf 0 8 8, memRead_split buf 0 16 2, memRead_split buf 0 18 1]

/-- The bytes of a location record of a frame are the frame's. -/
theorem frameLocationBytes_frameLocation (buf : List Byte) (a : Nat) (h : a + 10 ≤ buf.length) :
    frameLocationBytes (frameLocation buf a) = memRead buf a 10 := by
  simp only [frameLocationBytes_eq, frameLocation_eq]
  rw [fieldBytes_fieldBits _ _ _ (by omega), fieldBytes_fieldBits _ _ _ (by omega),
    fieldBytes_fieldBits _ _ _ (by omega), memRead_split buf a 8 1, memRead_split buf a 9 1]

/-- A location record decoded from a frame's bytes is that of its field patterns. -/
theorem locRecord_frame (buf : List Byte) (a : Nat) (h : a + 10 ≤ buf.length) :
    locRecord (memRead buf a 10) = locationOfFrame (frameLocation buf a) := by
  rw [locRecord_eq, memRead_memRead _ _ _ _ _ (by omega), memRead_memRead _ _ _ _ _ (by omega),
    memRead_memRead _ _ _ _ _ (by omega), memRead_one _ _ (by omega), memRead_one _ _ (by omega), fdec_one_unsigned,
    fdec_one_signed]
  simp only [locationOfFrame, frameLocation_eq, unsignedField, signedField_byte, fieldBits_one,
    fieldBits_toNat buf a 8 (by omega)]
  simp [fdec, patternOf, zext, byteAt]

/-- Chunk `k` of a data frame's body is the frame's location record `k`. -/
theorem chunkRecord_frame (buf : List Byte) (k : Nat) (hk : k < 4) (h : 60 ≤ buf.length) :
    chunkRecord (memRead buf 20 40) k = locationOfFrame (frameLocation buf (20 + 10 * k)) := by
  rw [chunkRecord_eq, memRead_memRead _ _ _ _ _ (by omega), locRecord_frame _ _ (by omega)]

theorem ports_round (e : Endian) (g : Bool) : endianOfPort e.port = e ∧ signedOfPort (signedPort g) = g := by
  cases e <;> cases g <;> decide

end Sys2Proof.Machine
end

