-- ==== Sys2Proof/Laws/PerInstr.lean ====
section
/-! SUPPORT. Each instruction's encoding carries its row of `opcode_table.json` (30_encoding.md R67, R72, R76). -/

namespace Sys2Proof.Laws.TableMatch

/-- An operation request with a select. -/
def HasSelect (r : Request) (sel : BitVec 4) : Prop := ∃ p, r = .op p ∧ p.op = sel

/-- A frame of a length with a tag at offset 19. -/
def HasTag (r : Request) (tag : Byte) (frameLength : Nat) : Prop :=
  ∃ buf, r = .frame buf ∧ byteAt buf 19 = tag ∧ buf.length = frameLength

/-- The encoding of an instruction matches its row. -/
def Statement (i : Instr) : Prop :=
  match i with
  | .fMove _ _ _ _ _ => HasTag (encode i) 0x00 24
  | .fRgb _ _ _ _ => HasTag (encode i) 0x01 23
  | .fData _ _ _ _ _ => HasTag (encode i) 0x02 60
  | .fLoc _ _ => HasTag (encode i) 0x03 30
  | .fenc _ _ _ _ => HasSelect (encode i) 0x0
  | .fdec _ _ _ _ => HasSelect (encode i) 0x1
  | .hfields _ => HasSelect (encode i) 0x2
  | .henc _ => HasSelect (encode i) 0x3
  | .hdec _ => HasSelect (encode i) 0x4
  | .lookup _ => HasSelect (encode i) 0x5
  | .moveFields _ => HasSelect (encode i) 0x6
  | .rgbFields _ => HasSelect (encode i) 0x7
  | .locFields _ => HasSelect (encode i) 0x8
  | .dataFields _ => HasSelect (encode i) 0x9
  | .moveDec _ => HasSelect (encode i) 0xA
  | .rgbDec _ => HasSelect (encode i) 0xB
  | .locDec _ => HasSelect (encode i) 0xC
  | .dataDec _ => HasSelect (encode i) 0xD
  | .penc _ _ _ => HasSelect (encode i) 0xE
  | .pdec _ => HasSelect (encode i) 0xF

theorem fMove (h : FrameHeader) (leftX leftY rightX rightY : BitVec 8) : Statement (.fMove h leftX leftY rightX rightY) := ⟨_, rfl, rfl, rfl⟩

theorem fRgb (h : FrameHeader) (red green blue : BitVec 8) : Statement (.fRgb h red green blue) := ⟨_, rfl, rfl, rfl⟩

theorem fData (destination source : BitVec 64) (swarmId : BitVec 16) (version : BitVec 8)
    (locs : Vector FrameLocation 4) : Statement (.fData destination source swarmId version locs) := by
  obtain ⟨l0, l1, l2, l3, rfl⟩ := Machine.records_cases locs
  exact ⟨_, rfl, rfl, rfl⟩

theorem fLoc (h : FrameHeader) (l : FrameLocation) : Statement (.fLoc h l) := ⟨_, rfl, rfl, rfl⟩

theorem fenc (value : Int) (length : Nat) (endianness : Endian) (signed : Bool) : Statement (.fenc value length endianness signed) := ⟨_, rfl, rfl⟩

theorem fdec (bytes : List Byte) (length : Nat) (endianness : Endian) (signed : Bool) : Statement (.fdec bytes length endianness signed) := ⟨_, rfl, rfl⟩

theorem hfields (h : Header) : Statement (.hfields h) := ⟨_, rfl, rfl⟩

theorem henc (h : Header) : Statement (.henc h) := ⟨_, rfl, rfl⟩

theorem hdec (buf : List Byte) : Statement (.hdec buf) := ⟨_, rfl, rfl⟩

theorem lookup (tag : Byte) : Statement (.lookup tag) := ⟨_, rfl, rfl⟩

theorem moveFields (m : MoveRaw) : Statement (.moveFields m) := ⟨_, rfl, rfl⟩

theorem rgbFields (c : RgbLed) : Statement (.rgbFields c) := ⟨_, rfl, rfl⟩

theorem locFields (l : Lh2RawLocation) : Statement (.locFields l) := ⟨_, rfl, rfl⟩

theorem dataFields (d : Lh2RawData) : Statement (.dataFields d) := ⟨_, rfl, rfl⟩

theorem moveDec (buf : List Byte) : Statement (.moveDec buf) := ⟨_, rfl, rfl⟩

theorem rgbDec (buf : List Byte) : Statement (.rgbDec buf) := ⟨_, rfl, rfl⟩

theorem locDec (buf : List Byte) : Statement (.locDec buf) := ⟨_, rfl, rfl⟩

theorem dataDec (buf : List Byte) : Statement (.dataDec buf) := ⟨_, rfl, rfl⟩

theorem penc (h : Header) (typ : Byte) (x : List Int) : Statement (.penc h typ x) := ⟨_, rfl, rfl⟩

theorem pdec (buf : List Byte) : Statement (.pdec buf) := ⟨_, rfl, rfl⟩

end Sys2Proof.Laws.TableMatch
end

