-- ==== Sys2Proof/Tests/Slice0.lean ====
section
/-! SUPPORT. Own tests. Expected values come from the spec: words written out from 30_encoding.md, vectors S1 and T1 to T8
of 95_test_vectors.md. At the end, one witness for the hypotheses of each statement. -/

namespace Sys2Proof.Tests

open Sys2Proof Sys2Proof.Machine

/-- The response an outcome ends with. -/
def answer (o : Host.Outcome State Fault Refusal) : Option Response :=
  match o with
  | .next t => t.responses.getLast?
  | .fault _ => none
  | .refused _ => none

/-- The refusal an outcome is. -/
def refusal (o : Host.Outcome State Fault Refusal) : Option Refusal :=
  match o with
  | .next _ => none
  | .fault _ => none
  | .refused r => some r

/-- An empty machine. -/
def s0 : State := State.reset

/-- What one step of the machine answers to one request. -/
def ask (r : Request) : Option Response := answer (step { requests := [r], responses := [] })

/-- The header bytes of S1: destination 1, source 2, swarm_id 3, version 1. -/
def hdr : List Byte := [0, 0, 0, 0, 0, 0, 0, 1, 0, 0, 0, 0, 0, 0, 0, 2, 0, 3, 1]

/-- Frame M of T7. -/
def frameM : List Byte :=
  [0x01, 0x23, 0x45, 0x67, 0x89, 0xAB, 0xCD, 0xEF, 0xFE, 0xDC, 0xBA, 0x98, 0x76, 0x54, 0x32, 0x10, 0xBE, 0xEF, 0x01,
    0x00, 0x80, 0x7F, 0xFF, 0x00]

/-- The body of frame D of T7. -/
def bodyD : List Byte :=
  [0x00, 0x01, 0x02, 0x03, 0x04, 0x05, 0x06, 0x07, 0x00, 0x80, 0xFF, 0xFF, 0xFF, 0xFF, 0xFF, 0xFF, 0xFF, 0xFF, 0xFF, 0x7F,
    0, 0, 0, 0, 0, 0, 0, 0, 0x01, 0xFF, 0x80, 0, 0, 0, 0, 0, 0, 0, 0x10, 0x05]

/-! ## WellFormed: one ill-formed term per check, refused by name -/

theorem test_wf_length_zero : (Instr.fenc 0 0 .big false).violation = some .fieldLength := by decide
theorem test_wf_length_nine : (Instr.fdec [0, 0, 0, 0, 0, 0, 0, 0, 0] 9 .big false).violation = some .fieldLength := by
  decide
theorem test_wf_byte_count : (Instr.fdec [0, 3] 1 .big false).violation = some .byteCount := by decide
theorem test_wf_slot_count : (Instr.penc ⟨1, 2, 3, 1⟩ 2 [1, 2, 3]).violation = some .slotCount := by decide
theorem test_refused_length : refusal (exec (.fenc 0 9 .big false) s0) = some .fieldLength := by decide
theorem test_refused_byte_count : refusal (exec (.fdec [0, 3] 1 .big false) s0) = some .byteCount := by decide
theorem test_refused_slot_count : refusal (exec (.penc ⟨1, 2, 3, 1⟩ 2 [1, 2, 3]) s0) = some .slotCount := by decide
theorem test_decode_slot_count : decode (.op { op := 0x6, x := [1, 2, 3] }) = .error (.outOfDomain .slotCount) := by
  decide

/-! ## Decode: a word per constructor, from 30_encoding.md R62 to R66, R72, R74 -/

theorem test_decode_fmove : decode (.frame (hdr ++ [0x00, 0x80, 0x7F, 0xFF, 0x00])) =
    .ok (.fMove ⟨1, 2, 3, 1⟩ 0x80 0x7F 0xFF 0x00) := by decide
theorem test_decode_frgb : decode (.frame (hdr ++ [0x01, 0xFF, 0x00, 0x80])) =
    .ok (.fRgb ⟨1, 2, 3, 1⟩ 0xFF 0x00 0x80) := by decide
theorem test_decode_fdata : decode (.frame (hdr ++ [0x02] ++ bodyD)) =
    .ok (.fData 1 2 3 1 #v[⟨0x0001020304050607, 0x00, 0x80⟩, ⟨0xFFFFFFFFFFFFFFFF, 0xFF, 0x7F⟩, ⟨0, 0x01, 0xFF⟩,
      ⟨0x8000000000000000, 0x10, 0x05⟩]) := by decide
theorem test_decode_floc :
    decode (.frame (hdr ++ [0x03, 0x11, 0x22, 0x33, 0x44, 0x55, 0x66, 0x77, 0x88, 0xC8, 0xFB])) =
      .ok (.fLoc ⟨1, 2, 3, 1⟩ ⟨0x1122334455667788, 0xC8, 0xFB⟩) := by decide
theorem test_decode_fenc : decode (.op { op := 0b0000, value := -2, length := 2, endian := 1, sgn := 1 }) =
    .ok (.fenc (-2) 2 .little true) := by decide
theorem test_decode_fdec : decode (.op { op := 0b0001, buf := [0x00, 0x03], length := 2, endian := 0, sgn := 1 }) =
    .ok (.fdec [0x00, 0x03] 2 .big true) := by decide
theorem test_decode_hfields : decode (.op { op := 0b0010, h := ⟨1, 2, 3, 4⟩ }) = .ok (.hfields ⟨1, 2, 3, 4⟩) := by decide
theorem test_decode_henc : decode (.op { op := 0b0011, h := ⟨1, 2, 3, 4⟩ }) = .ok (.henc ⟨1, 2, 3, 4⟩) := by decide
theorem test_decode_hdec : decode (.op { op := 0b0100, buf := hdr }) = .ok (.hdec hdr) := by decide
theorem test_decode_lookup : decode (.op { op := 0b0101, tag := 0xFF, typ := 2 }) = .ok (.lookup 0xFF) := by decide
theorem test_decode_move_fields : decode (.op { op := 0b0110, x := [1, 2, 3, 4] }) = .ok (.moveFields ⟨1, 2, 3, 4⟩) := by
  decide
theorem test_decode_rgb_fields : decode (.op { op := 0b0111, x := [1, 2, 3] }) = .ok (.rgbFields ⟨1, 2, 3⟩) := by decide
theorem test_decode_loc_fields : decode (.op { op := 0b1000, x := [1, 2, 3] }) = .ok (.locFields ⟨1, 2, 3⟩) := by decide
theorem test_decode_data_fields : decode (.op { op := 0b1001, x := [1, 2, -3, 4, 5, -6, 7, 8, -9, 10, 11, -12] }) =
    .ok (.dataFields ⟨#v[⟨1, 2, -3⟩, ⟨4, 5, -6⟩, ⟨7, 8, -9⟩, ⟨10, 11, -12⟩]⟩) := by decide
theorem test_decode_move_dec : decode (.op { op := 0b1010, buf := [1, 2] }) = .ok (.moveDec [1, 2]) := by decide
theorem test_decode_rgb_dec : decode (.op { op := 0b1011, buf := [1, 2] }) = .ok (.rgbDec [1, 2]) := by decide
theorem test_decode_loc_dec : decode (.op { op := 0b1100, buf := [1, 2] }) = .ok (.locDec [1, 2]) := by decide
theorem test_decode_data_dec : decode (.op { op := 0b1101, buf := [1, 2] }) = .ok (.dataDec [1, 2]) := by decide
theorem test_decode_penc : decode (.op { op := 0b1110, h := ⟨1, 2, 3, 1⟩, typ := 1, tag := 2, x := [255, 0, 128] }) =
    .ok (.penc ⟨1, 2, 3, 1⟩ 1 [255, 0, 128]) := by decide
theorem test_decode_pdec : decode (.op { op := 0b1111, buf := [1, 2] }) = .ok (.pdec [1, 2]) := by decide
theorem test_decode_invalid_tag : decode (.frame (hdr ++ [0x80, 0, 0, 0, 0])) =
    .error (.frameError .unsupportedPayloadType) := by decide
theorem test_decode_table_word : decodeTableWord 184 (0x8000FF01 <<< 152) = some (.fRgb ⟨0, 0, 0, 0⟩ 0xFF 0x00 0x80) := by
  decide

/-! ## Meanings: at most two vectors an instruction, one step each -/

/-- T1: two's complement and reversed bytes. -/
theorem test_fenc_little_negative : answer (exec (.fenc (-2) 2 .little true) s0) = some (.ok (.bytes [0xFE, 0xFF])) := by
  decide
/-- T1: `2^64` does not fit eight unsigned bytes. -/
theorem test_fenc_overflow : answer (exec (.fenc 18446744073709551616 8 .big false) s0) = some (.error .fieldOverflow) := by
  decide
/-- T2. -/
theorem test_fdec_little_signed : answer (exec (.fdec [0xFF, 0xFE] 2 .little true) s0) = some (.ok (.value (-257))) := by
  decide
/-- T2. -/
theorem test_fdec_little_eight :
    answer (exec (.fdec [0xFF, 0xFF, 0xFF, 0xFF, 0xFF, 0xFF, 0xFF, 0xFE] 8 .little true) s0) =
      some (.ok (.value (-72057594037927937))) := by decide
/-- T3: values are not checked. -/
theorem test_hfields_unchecked : answer (exec (.hfields ⟨-1, 0, 70000, 300⟩) s0) = some (.ok (.descriptors
    [⟨.destination, -1, 8, .big, false⟩, ⟨.source, 0, 8, .big, false⟩, ⟨.swarmId, 70000, 2, .big, false⟩,
      ⟨.version, 300, 1, .big, false⟩])) := by decide
/-- T3. -/
theorem test_henc : answer (exec (.henc ⟨0x0123456789ABCDEF, 0xFEDCBA9876543210, 0xBEEF, 1⟩) s0) =
    some (.ok (.bytes [0x01, 0x23, 0x45, 0x67, 0x89, 0xAB, 0xCD, 0xEF, 0xFE, 0xDC, 0xBA, 0x98, 0x76, 0x54, 0x32, 0x10,
      0xBE, 0xEF, 0x01])) := by decide
/-- T3. -/
theorem test_henc_overflow : answer (exec (.henc ⟨1, 2, 65536, 1⟩) s0) = some (.error .fieldOverflow) := by decide
/-- T3: surplus ignored. -/
theorem test_hdec_surplus : answer (exec (.hdec (hdr ++ [0x01, 0xFF, 0x00, 0x80])) s0) =
    some (.ok (.header ⟨1, 2, 3, 1⟩ false)) := by decide
/-- T3: nineteen `FF`. -/
theorem test_hdec_mismatch : answer (exec (.hdec (List.replicate 19 0xFF)) s0) =
    some (.ok (.header ⟨18446744073709551615, 18446744073709551615, 65535, 255⟩ true)) := by decide
/-- T4. -/
theorem test_lookup_data : answer (exec (.lookup 2) s0) = some (.ok (.registry 40 .data)) := by decide
/-- T4: no bit of the tag is ignored. -/
theorem test_lookup_whole_byte : answer (exec (.lookup 0x80) s0) = some (.error .unsupportedPayloadType) := by decide
/-- T5. -/
theorem test_move_fields : answer (exec (.moveFields ⟨-128, 127, -1, 0⟩) s0) = some (.ok (.descriptors
    [⟨.leftX, -128, 1, .big, true⟩, ⟨.leftY, 127, 1, .big, true⟩, ⟨.rightX, -1, 1, .big, true⟩,
      ⟨.rightY, 0, 1, .big, true⟩])) := by decide
/-- T5. -/
theorem test_rgb_fields : answer (exec (.rgbFields ⟨255, 0, 128⟩) s0) = some (.ok (.descriptors
    [⟨.red, 255, 1, .big, false⟩, ⟨.green, 0, 1, .big, false⟩, ⟨.blue, 128, 1, .big, false⟩])) := by decide
/-- T5. -/
theorem test_loc_fields : answer (exec (.locFields ⟨0x1122334455667788, 200, -5⟩) s0) = some (.ok (.descriptors
    [⟨.bits, 1234605616436508552, 8, .big, false⟩, ⟨.polynomialIndex, 200, 1, .big, false⟩,
      ⟨.offset, -5, 1, .big, true⟩])) := by decide
/-- T5: the bytes of the twelve descriptors. -/
theorem test_data_fields_bytes :
    encfields (dataDescriptors ⟨#v[⟨1, 2, -3⟩, ⟨4, 5, -6⟩, ⟨7, 8, -9⟩, ⟨10, 11, -12⟩]⟩) =
      .ok [0, 0, 0, 0, 0, 0, 0, 1, 2, 0xFD, 0, 0, 0, 0, 0, 0, 0, 4, 5, 0xFA, 0, 0, 0, 0, 0, 0, 0, 7, 8, 0xF7,
        0, 0, 0, 0, 0, 0, 0, 0x0A, 0x0B, 0xF4] := by decide
/-- T5: the values and labels of `DATA.FIELDS`, records in order. -/
theorem test_data_fields :
    (match answer (exec (.dataFields ⟨#v[⟨1, 2, -3⟩, ⟨4, 5, -6⟩, ⟨7, 8, -9⟩, ⟨10, 11, -12⟩]⟩) s0) with
      | some (.ok (.descriptors fds)) => fds.map (·.value)
      | _ => []) = [1, 2, -3, 4, 5, -6, 7, 8, -9, 10, 11, -12] := by decide
/-- T5. -/
theorem test_move_dec : answer (exec (.moveDec [0x80, 0x7F, 0xFF, 0x00, 0xAA]) s0) =
    some (.ok (.body (.move ⟨-128, 127, -1, 0⟩))) := by decide
/-- T5. -/
theorem test_move_dec_short : answer (exec (.moveDec [0x80, 0x7F, 0xFF]) s0) = some (.error .truncatedBuffer) := by decide
/-- T5: the bytes of a MoveRaw prefix, read unsigned. -/
theorem test_rgb_dec : answer (exec (.rgbDec [0x80, 0x7F, 0xFF]) s0) = some (.ok (.body (.rgb ⟨128, 127, 255⟩))) := by
  decide
/-- T5. -/
theorem test_rgb_dec_short : answer (exec (.rgbDec [0xFF, 0x00]) s0) = some (.error .truncatedBuffer) := by decide
/-- T5: only the last byte is signed. -/
theorem test_loc_dec : answer (exec (.locDec [0x80, 0, 0, 0, 0, 0, 0, 0, 0x80, 0x80]) s0) =
    some (.ok (.body (.loc ⟨9223372036854775808, 128, -128⟩))) := by decide
/-- T5. -/
theorem test_loc_dec_short : answer (exec (.locDec [0x11, 0x22, 0x33, 0x44, 0x55, 0x66, 0x77, 0x88, 0xC8]) s0) =
    some (.error .truncatedBuffer) := by decide
/-- P2, step 2: the four records of frame D. -/
theorem test_data_dec : answer (exec (.dataDec bodyD) s0) = some (.ok (.body (.data ⟨#v[⟨283686952306183, 0, -128⟩,
    ⟨18446744073709551615, 255, 127⟩, ⟨0, 1, -1⟩, ⟨9223372036854775808, 16, 5⟩]⟩))) := by decide
/-- T5: three whole records are no value. -/
theorem test_data_dec_short : answer (exec (.dataDec (bodyD.take 30)) s0) = some (.error .truncatedBuffer) := by decide
/-- S1. -/
theorem test_penc : answer (exec (.penc ⟨1, 2, 3, 1⟩ 1 [255, 0, 128]) s0) =
    some (.ok (.bytes (hdr ++ [0x01, 0xFF, 0x00, 0x80]))) := by decide
/-- T7: the lookup comes first. -/
theorem test_penc_unsupported : answer (exec (.penc ⟨18446744073709551616, 2, 3, 1⟩ 4 []) s0) =
    some (.error .unsupportedPayloadType) := by decide
/-- T8. -/
theorem test_pdec : answer (exec (.pdec (frameM ++ [0xAA, 0xBB])) s0) = some (.ok (.payload
    ⟨⟨81985529216486895, 18364758544493064720, 48879, 1⟩, .move ⟨-128, 127, -1, 0⟩⟩ false)) := by decide
/-- T8: the tag is tested before the second length test. -/
theorem test_pdec_tag_first : answer (exec (.pdec (frameM.take 19 ++ [0xFF])) s0) =
    some (.error .unsupportedPayloadType) := by decide
/-- T8, as an inbound frame: decodes as RgbLed when byte 19 is `01`, byte 23 ignored. -/
theorem test_frgb_frame : ask (.frame (frameM.take 19 ++ [0x01, 0x80, 0x7F, 0xFF, 0x00])) = some (.ok (.payload
    ⟨⟨81985529216486895, 18364758544493064720, 48879, 1⟩, .rgb ⟨128, 127, 255⟩⟩ false)) := by decide
/-- T8, as an inbound frame. -/
theorem test_fmove_frame : ask (.frame frameM) = some (.ok (.payload
    ⟨⟨81985529216486895, 18364758544493064720, 48879, 1⟩, .move ⟨-128, 127, -1, 0⟩⟩ false)) := by decide
/-- T8: frame D's body, version 1. -/
theorem test_fdata_frame : ask (.frame (hdr ++ [0x02] ++ bodyD)) = some (.ok (.payload ⟨⟨1, 2, 3, 1⟩,
    .data ⟨#v[⟨283686952306183, 0, -128⟩, ⟨18446744073709551615, 255, 127⟩, ⟨0, 1, -1⟩, ⟨9223372036854775808, 16, 5⟩]⟩⟩
      false)) := by decide
/-- T8: frame L with version 2 in byte 18, so `vmis` is 1. -/
theorem test_floc_frame :
    ask (.frame (hdr.take 18 ++ [0x02, 0x03, 0x11, 0x22, 0x33, 0x44, 0x55, 0x66, 0x77, 0x88, 0xC8, 0xFB])) =
      some (.ok (.payload ⟨⟨1, 2, 3, 2⟩, .loc ⟨1234605616436508552, 200, -5⟩⟩ true)) := by decide
/-- T8: 23 bytes of frame M, as an inbound frame. -/
theorem test_frame_truncated : ask (.frame (frameM.take 23)) = some (.error .truncatedBuffer) := by decide

/-! ## Table words -/

theorem test_table_word_op : decodeTableWord 8 0x5 = some (.lookup 0) := by decide
theorem test_table_word_frame : decodeTableWord 160 (4 * 2 ^ 152) = none := by decide
theorem test_table_word_tag : decodeTableWord 8 0x10 = none ∧ decodeTableWord 184 1 = some (.fRgb ⟨0, 0, 0, 0⟩ 0 0 0) := by
  decide
theorem test_table_word_frame_long :
    decodeTableWord 184 (0x800001 * 2 ^ 152) = some (.fRgb ⟨0, 0, 0, 0⟩ 0x00 0x80 0x00) := by decide

/-! ## Witnesses: for each statement, states and operands that meet its hypotheses, at the boundaries of its clauses -/

theorem witness_StepRunsDecodedInstruction :
    (⟨[.op { op := 0x5, tag := 3 }], []⟩ : State).requests = Request.op { op := 0x5, tag := 3 } :: [] ∧
      decode (.op { op := 0x5, tag := 3 }) = .ok (.lookup 3) := by decide
theorem witness_StepAnswersUnreadableFrame :
    decode (.frame []) = .error (.frameError .truncatedBuffer) ∧
      decode (.frame (hdr ++ [0x04])) = .error (.frameError .unsupportedPayloadType) ∧
      decode (.frame (hdr ++ [0x01, 0, 0])) = .error (.frameError .truncatedBuffer) := by decide
/-- The state whose only request is an operation. -/
def asks (p : Ports) : State := ⟨[.op p], []⟩

theorem witness_StepRefusesOutOfDomain_length :
    refusal (step (asks { op := 0x0, length := 0 })) = some .fieldLength ∧
      refusal (step (asks { op := 0x0, length := 9 })) = some .fieldLength ∧
      refusal (step (asks { op := 0x1, length := 15, buf := List.replicate 15 0 })) = some .fieldLength ∧
      refusal (step (asks { op := 0x1, length := 1 })) = some .byteCount ∧
      refusal (step (asks { op := 0x1, length := 8, buf := List.replicate 9 0 })) = some .byteCount := by decide
theorem witness_StepRefusesOutOfDomain_slots :
    refusal (step (asks { op := 0x6, x := [1, 2, 3, 4, 5] })) = some .slotCount ∧
      refusal (step (asks { op := 0x7, x := [1, 2] })) = some .slotCount ∧
      refusal (step (asks { op := 0x8, x := [] })) = some .slotCount ∧
      refusal (step (asks { op := 0x9, x := List.replicate 13 0 })) = some .slotCount ∧
      refusal (step (asks { op := 0xE, typ := 0, x := [1, 2, 3] })) = some .slotCount ∧
      refusal (step (asks { op := 0xE, typ := 1, x := [1, 2, 3, 4] })) = some .slotCount ∧
      refusal (step (asks { op := 0xE, typ := 2, x := List.replicate 11 0 })) = some .slotCount ∧
      refusal (step (asks { op := 0xE, typ := 3, x := [1, 2] })) = some .slotCount := by decide
theorem witness_StepWithoutRequestWaits : (⟨[], [.error .fieldOverflow]⟩ : State).requests = [] := rfl
theorem witness_FetchWordIsRunNext : decodeTableWord 8 0xF = some (.pdec (List.replicate 60 0)) := by decide

/-- A machine that has delivered one response and holds one frame. -/
def busy : State := ⟨[.frame frameM], [.ok (.registry 4 .move)]⟩

theorem witness_StepKeepsResponsesSound : ResponsesSound busy ∧
    answer (step busy) = some (.ok (.payload
      ⟨⟨81985529216486895, 18364758544493064720, 48879, 1⟩, .move ⟨-128, 127, -1, 0⟩⟩ false)) := by
  refine ⟨?_, by decide⟩
  intro r hr
  simp only [busy, List.mem_singleton] at hr
  subst hr
  simp [ResponseSound]
theorem witness_ExecOnlyAddsOneResponse :
    exec (.lookup 0) busy = .next { busy with responses := [.ok (.registry 4 .move), .ok (.registry 4 .move)] } := rfl
theorem witness_ExecCompletesExactlyOnDomain :
    (Instr.fenc 0 1 .big false).WellFormed ∧ (Instr.fenc 0 8 .big false).WellFormed ∧
      (Instr.fenc 0 0 .big false).violation = some .fieldLength ∧
      (Instr.fdec (List.replicate 9 0) 9 .big true).violation = some .fieldLength ∧
      (Instr.fdec [] 1 .big true).violation = some .byteCount ∧
      (Instr.penc ⟨0, 0, 0, 0⟩ 1 []).violation = some .slotCount := by decide

/-- Three accepted requests: an operation, a frame, and a frame that cannot be read. -/
def batch : List Request := [.op { op := 0x5, tag := 9 }, .frame frameM, .frame []]

theorem witness_RunAnswersEachRequestAlone : ∀ r ∈ batch, RequestAccepted r := by
  simp only [batch, List.forall_mem_cons]
  exact ⟨by intro d h; revert h; cases d <;> decide, by intro d h; revert h; cases d <;> decide,
    by intro d h; revert h; cases d <;> decide, by simp⟩
theorem witness_RunOrderIsImmaterial : batch.Perm batch.reverse ∧ ∀ r ∈ batch, RequestAccepted r :=
  ⟨batch.reverse_perm.symm, witness_RunAnswersEachRequestAlone⟩
theorem witness_ErrorsFollowTheTable :
    ErrorCause (.fenc 256 1 .big false) .fieldOverflow ∧ ErrorCause (.henc ⟨0, 0, 0, 256⟩) .fieldOverflow ∧
      ErrorCause (.hdec (hdr.take 18)) .truncatedBuffer ∧ ErrorCause (.lookup 4) .unsupportedPayloadType ∧
      ErrorCause (.moveDec [0, 0, 0]) .truncatedBuffer ∧ ErrorCause (.dataDec (bodyD.take 39)) .truncatedBuffer ∧
      ErrorCause (.penc ⟨0, 0, 0, 0⟩ 4 []) .unsupportedPayloadType ∧
      ErrorCause (.pdec (frameM.take 23)) .truncatedBuffer ∧ ErrorCause (.pdec hdr) .truncatedBuffer ∧
      ErrorCause (.pdec (hdr ++ [0x04])) .unsupportedPayloadType ∧
      (Instr.penc ⟨0, 0, 0, 0⟩ 4 []).WellFormed := by
  refine ⟨?_, ?_, ?_, ?_, ?_, ?_, ?_, ?_, ?_, ?_, ?_⟩ <;> simp [ErrorCause, ValueFits, HeaderInRange, hdr, bodyD, frameM]
  decide
theorem witness_ErrorsFollowTheTable_penc_overflow :
    ErrorCause (.penc ⟨0, 0, 0, 256⟩ 1 [0, 0, 0]) .fieldOverflow ∧
      (Instr.penc ⟨0, 0, 0, 256⟩ 1 [0, 0, 0]).WellFormed := by
  refine ⟨⟨by decide, fun h => ?_⟩, by decide⟩
  exact absurd h.1.2.2.2.2 (by decide)
theorem witness_DecodeEncodeRoundTrip :
    (Instr.fenc (-1) 8 .little true).WellFormed ∧ (Instr.fdec [0] 1 .little true).WellFormed ∧
      (Instr.penc ⟨1, 2, 3, 1⟩ 2 (List.replicate 12 0)).WellFormed ∧
      (Instr.fData 1 2 3 1 #v[⟨1, 2, 3⟩, ⟨4, 5, 6⟩, ⟨7, 8, 9⟩, ⟨10, 11, 12⟩]).WellFormed := by decide
theorem witness_DecodedIsWellFormed :
    decode (.op { op := 0x1, length := 8, buf := List.replicate 8 0xFF }) =
      .ok (.fdec (List.replicate 8 0xFF) 8 .big false) := by decide
theorem witness_EncodeOfDecodedFrame :
    decode (.frame (hdr ++ [0x01, 1, 2, 3, 0xAA])) = .ok (.fRgb ⟨1, 2, 3, 1⟩ 1 2 3) := by decide
theorem witness_SelectsAssignedAndUnambiguous :
    decode (.op { op := 0x5, tag := 1 }) = .ok (.lookup 1) ∧
      decode (.op { op := 0x5, tag := 1, typ := 7 }) = .ok (.lookup 1) := by decide
theorem witness_FencWritesDigits :
    ValueFits 255 1 false ∧ ¬ ValueFits 256 1 false ∧ ValueFits 18446744073709551615 8 false ∧
      ¬ ValueFits (-1) 8 false ∧ ValueFits (-128) 1 true ∧ ¬ ValueFits 128 1 true := by simp [ValueFits]
theorem witness_FdecReadsPattern : (List.replicate 8 (0xFF : Byte)).length = 8 ∧ ([0x80] : List Byte).length = 1 := by
  decide
theorem witness_ConverterRefusesOutOfDomain :
    refusal (exec (.fenc 0 0 .big false) s0) = some .fieldLength ∧
      refusal (exec (.fdec [] 9 .big false) s0) = some .fieldLength ∧
      refusal (exec (.fdec [] 1 .big false) s0) = some .byteCount ∧
      refusal (exec (.fdec (List.replicate 9 0) 8 .big false) s0) = some .byteCount := by decide
theorem witness_ConverterValueRoundTrip : ValueFits (-128) 1 true ∧ ValueFits (2 ^ 72 - 1) 9 false := by
  simp [ValueFits]
theorem witness_ConverterByteRoundTrip : ([0x80, 0] : List Byte).length = 2 := rfl
theorem witness_FdecIsBijective : ValueFits (-32768) 2 true ∧ ([0x80, 0] : List Byte).length = 2 := by simp [ValueFits]
theorem witness_ListHelpersAreInverse :
    (∀ d ∈ locShapes, 1 ≤ d.length) ∧ ([1, 2, -3] : List Int).length = locShapes.length ∧
      encfields (describeAll locShapes [1, 2, -3]) = .ok [0, 0, 0, 0, 0, 0, 0, 1, 2, 0xFD] ∧
      ([0, 0, 0, 0, 0, 0, 0, 1, 2, 0xFD] : List Byte).length = shapesWidth locShapes := by decide
theorem witness_HencWritesHeader :
    HeaderInRange ⟨18446744073709551615, 0, 65535, 255⟩ ∧ ¬ HeaderInRange ⟨18446744073709551616, 0, 0, 0⟩ ∧
      ¬ HeaderInRange ⟨0, -1, 0, 0⟩ ∧ ¬ HeaderInRange ⟨0, 0, 65536, 0⟩ ∧ ¬ HeaderInRange ⟨0, 0, 0, 256⟩ := by
  simp [HeaderInRange]
theorem witness_HdecReadsHeader : 19 ≤ hdr.length ∧ (hdr.take 18).length < 19 := by decide
theorem witness_HeaderRoundTrip : HeaderInRange ⟨1, 2, 3, 1⟩ ∧ hdr.length = 19 := by simp [HeaderInRange, hdr]
theorem witness_LookupAnswersFourTags : 4 ≤ (4 : Byte).toNat ∧ 4 ≤ (255 : Byte).toNat ∧ ¬ 4 ≤ (3 : Byte).toNat := by decide
theorem witness_MoveAndRgbDecode :
    4 ≤ (bodyD.take 4).length ∧ (bodyD.take 3).length < 4 ∧ 3 ≤ (bodyD.take 3).length ∧ (bodyD.take 2).length < 3 := by
  decide
theorem witness_LocAndDataDecode :
    10 ≤ (bodyD.take 10).length ∧ (bodyD.take 9).length < 10 ∧ 40 ≤ bodyD.length ∧ (bodyD.take 39).length < 40 := by decide
theorem witness_DataIsFourRecords :
    exec (.locFields ⟨1, 2, -3⟩) s0 = .next { s0 with responses := s0.responses ++ [.ok (.descriptors
        [⟨.bits, 1, 8, .big, false⟩, ⟨.polynomialIndex, 2, 1, .big, false⟩, ⟨.offset, -3, 1, .big, true⟩])] } ∧
      (bodyD.take 10).length = 10 := ⟨rfl, rfl⟩
theorem witness_BodyRoundTrip :
    BodyInRange (.move ⟨-128, 127, 0, 0⟩) ∧ BodyInRange (.rgb ⟨0, 255, 1⟩) ∧
      BodyInRange (.loc ⟨18446744073709551615, 255, -128⟩) ∧
      BodyInRange (.data ⟨#v[⟨0, 0, 127⟩, ⟨1, 1, 1⟩, ⟨2, 2, 2⟩, ⟨3, 3, 3⟩]⟩) ∧
      bodyD.length = shapesWidth (bodyShapes .data) ∧ (bodyD.take 3).length = shapesWidth (bodyShapes .rgb) := by
  simp [BodyInRange, LocationInRange, bodyD]
  decide
theorem witness_SurplusBytesIgnored :
    exec (.hdec hdr) s0 = .next { s0 with responses := s0.responses ++ [.ok (.header ⟨1, 2, 3, 1⟩ false)] } ∧
      exec (.rgbDec [1, 2, 3]) s0 =
        .next { s0 with responses := s0.responses ++ [.ok (.body (.rgb ⟨1, 2, 3⟩))] } := ⟨rfl, rfl⟩
theorem witness_PencWritesFrame : PayloadInRange ⟨⟨1, 2, 3, 1⟩, .rgb ⟨255, 0, 128⟩⟩ := by
  simp [PayloadInRange, HeaderInRange, BodyInRange]
theorem witness_PencUnsupportedComesFirst : 4 ≤ (4 : Byte).toNat ∧ 4 ≤ (255 : Byte).toNat := by decide
theorem witness_PencRefusesSlotCount :
    refusal (exec (.penc ⟨0, 0, 0, 0⟩ 0 [0, 0, 0]) s0) = some .slotCount ∧
      refusal (exec (.penc ⟨0, 0, 0, 0⟩ 1 [0, 0, 0, 0]) s0) = some .slotCount ∧
      refusal (exec (.penc ⟨0, 0, 0, 0⟩ 2 (List.replicate 13 0)) s0) = some .slotCount ∧
      refusal (exec (.penc ⟨0, 0, 0, 0⟩ 3 []) s0) = some .slotCount := by decide
theorem witness_PdecTestsInOrder :
    hdr.length < 20 ∧ 20 ≤ (hdr ++ [0x04]).length ∧ 4 ≤ ((hdr ++ [0x04]).getD 19 0).toNat ∧
      (hdr ++ [0x00, 0, 0, 0]).getD 19 0 = 0 ∧ (hdr ++ [0x00, 0, 0, 0]).length = 23 ∧
      (hdr ++ [0x01, 0, 0]).getD 19 0 = 1 ∧ (hdr ++ [0x01, 0, 0]).length = 22 ∧
      (hdr ++ [0x02] ++ bodyD.take 39).getD 19 0 = 2 ∧ (hdr ++ [0x02] ++ bodyD.take 39).length = 59 ∧
      (hdr ++ [0x03] ++ bodyD.take 9).getD 19 0 = 3 ∧ (hdr ++ [0x03] ++ bodyD.take 9).length = 29 := by decide
theorem witness_PdecTestsInOrder_other :
    exec (.locDec []) s0 = .next { s0 with responses := s0.responses ++ [.error .truncatedBuffer] } := rfl
theorem witness_PdecReadsFrame :
    (⟨0, 4, .move⟩ : RegistryRow) ∈ registry ∧ frameM.getD 19 0 = 0 ∧ 20 + 4 = frameM.length ∧
      (⟨2, 40, .data⟩ : RegistryRow) ∈ registry ∧ (hdr ++ [0x02] ++ bodyD).getD 19 0 = 2 ∧
      20 + 40 = (hdr ++ [0x02] ++ bodyD).length := by decide
theorem witness_PayloadRoundTrip :
    PayloadInRange ⟨⟨18446744073709551615, 0, 65535, 255⟩, .move ⟨-128, 127, -1, 0⟩⟩ ∧
      PayloadInRange ⟨⟨0, 0, 0, 1⟩, .loc ⟨0, 255, -128⟩⟩ := by
  simp [PayloadInRange, HeaderInRange, BodyInRange, LocationInRange]
theorem witness_PayloadConverse :
    answer (exec (.pdec (hdr ++ [0x01, 1, 2, 3, 0xAA])) s0) =
      some (.ok (.payload ⟨⟨1, 2, 3, 1⟩, .rgb ⟨1, 2, 3⟩⟩ false)) := by decide
theorem witness_FramesIdentifyPayloads :
    answer (exec (.penc ⟨1, 2, 3, 1⟩ (payloadTyp ⟨⟨1, 2, 3, 1⟩, .rgb ⟨1, 2, 3⟩⟩) (bodySlots (.rgb ⟨1, 2, 3⟩))) s0) =
      some (.ok (.bytes (hdr ++ [0x01, 1, 2, 3]))) := by decide

theorem witness_StatusCodesOfResponses :
    (∀ h vmis, Result.registry 4 .move ≠ .header h vmis) ∧ (∀ p vmis, Result.registry 4 .move ≠ .payload p vmis) ∧
      (⟨2, 40, .data⟩ : RegistryRow) ∈ registry := by
  exact ⟨by simp, by simp, by decide⟩
theorem witness_StepAnswersRequestsInDomain :
    PortsInDomain { op := 0x0, length := 8 } ∧ PortsInDomain { op := 0x1, length := 1, buf := [0] } ∧
      PortsInDomain { op := 0x6, x := [1, 2, 3, 4] } ∧ PortsInDomain { op := 0x9, x := List.replicate 12 0 } ∧
      PortsInDomain { op := 0xE, typ := 3, x := [1, 2, 3] } ∧ PortsInDomain { op := 0xE, typ := 4, x := [] } ∧
      (⟨[.frame []], []⟩ : State).requests = Request.frame [] :: [] := by
  simp [PortsInDomain]
  decide
theorem witness_UnnamedPortsAreIgnored :
    AgreeOnNamedPorts { op := 0x5, tag := 1 } { op := 0x5, tag := 1, buf := [7], typ := 9, x := [1] } ∧
      AgreeOnNamedPorts { op := 0xE, typ := 1, x := [1, 2, 3] } { op := 0xE, typ := 1, x := [1, 2, 3], length := 9 } := by
  simp [AgreeOnNamedPorts]

/-! ## The literals of 70_reset_and_hazards.md R224 agree -/

/-- R9, R10: the numbers the spec states for what `Config` computes from the field lengths and `N_LOC`. -/
theorem test_constants_consistent :
    Config.headerLen = 19 ∧ Config.tagOffset = 19 ∧ Config.bodyOffset = 20 ∧ Config.minDecodeLen = 20 ∧
      Config.wMove = 4 ∧ Config.wRgb = 3 ∧ Config.wLoc = 10 ∧ Config.wData = 40 ∧ Config.nSlots = 12 ∧
      Config.maxFrameLen = 60 ∧ Config.minFrameLen = 23 := by decide
/-- R224: the registry and the frame table name the same tags, widths and variants, one row for each tag. -/
theorem test_tables_consistent :
    registry.length = Config.nTags ∧ frameRows.length = Config.nTags ∧
      frameRows.map (fun r => (r.matchByte, r.format, r.frameLength)) =
        registry.map (fun r => (r.tag, r.vid, Config.bodyOffset + r.w)) := by decide

end Sys2Proof.Tests
end

section
/-! Proofs about the header operations (41_header.md). -/

namespace Sys2Proof.Machine

theorem exec_hfields (h : Header) (s : State) :
    exec (.hfields h) s = .next (deliver (.ok (.descriptors (headerFields h))) s) := by
  simp only [exec, execHfields, finish_ok]

/-- The registered shapes paired with the header's slots, in the order of R110; no range is looked at (R111). -/
theorem headerFields_eq (h : Header) : headerFields h =
    [⟨.destination, h.destination, 8, .big, false⟩, ⟨.source, h.source, 8, .big, false⟩,
      ⟨.swarmId, h.swarmId, 2, .big, false⟩, ⟨.version, h.version, 1, .big, false⟩] := by
  simp [headerFields, headerShapes_eq, headerSlots, describeAll, describe]

/-- Settles O32: `HFIELDS` delivers the header's descriptor list, which is the literal one of R110. -/
theorem hfieldsDescribesHeader : Obligations.HfieldsDescribesHeader := by
  intro s h
  rw [exec_hfields, headerFields_eq, deliver]

end Sys2Proof.Machine
end

section
/-! Proofs about the `FIELDS` operations of the body variants (43_body_variants.md). -/

namespace Sys2Proof.Machine

theorem exec_moveFields (m : MoveRaw) (s : State) :
    exec (.moveFields m) s = .next (deliver (.ok (.descriptors (moveDescriptors m))) s) := by
  simp only [exec, execMoveFields, finish_ok]

theorem exec_rgbFields (c : RgbLed) (s : State) :
    exec (.rgbFields c) s = .next (deliver (.ok (.descriptors (rgbDescriptors c))) s) := by
  simp only [exec, execRgbFields, finish_ok]

theorem exec_locFields (l : Lh2RawLocation) (s : State) :
    exec (.locFields l) s = .next (deliver (.ok (.descriptors (locDescriptors l))) s) := by
  simp only [exec, execLocFields, finish_ok]

theorem exec_dataFields (d : Lh2RawData) (s : State) :
    exec (.dataFields d) s = .next (deliver (.ok (.descriptors (dataDescriptors d))) s) := by
  simp only [exec, execDataFields, finish_ok]

/-- `MOVE_DS` paired with the slots, in the order of R135; no range is looked at (R149). -/
theorem moveDescriptors_eq (m : MoveRaw) : moveDescriptors m =
    [⟨.leftX, m.leftX, 1, .big, true⟩, ⟨.leftY, m.leftY, 1, .big, true⟩,
      ⟨.rightX, m.rightX, 1, .big, true⟩, ⟨.rightY, m.rightY, 1, .big, true⟩] := by
  simp [moveDescriptors, moveShapes_eq, moveSlots, describeAll, describe]

/-- `RGB_DS` paired with the slots, in the order of R137; no range is looked at (R149). -/
theorem rgbDescriptors_eq (c : RgbLed) : rgbDescriptors c =
    [⟨.red, c.red, 1, .big, false⟩, ⟨.green, c.green, 1, .big, false⟩, ⟨.blue, c.blue, 1, .big, false⟩] := by
  simp [rgbDescriptors, rgbShapes_eq, rgbSlots, describeAll, describe]

/-- `LOC_DS` paired with the slots, in the order of R139; no range is looked at (R149). -/
theorem locDescriptors_eq (l : Lh2RawLocation) : locDescriptors l =
    [⟨.bits, l.bits, 8, .big, false⟩, ⟨.polynomialIndex, l.polynomialIndex, 1, .big, false⟩,
      ⟨.offset, l.offset, 1, .big, true⟩] := by
  simp [locDescriptors, locShapes_eq, locSlots, describeAll, describe]

/-- `DATA.FIELDS` answers the `LOC.FIELDS` descriptors of the four records in order (R142, R147). -/
theorem dataDescriptors_eq_records (d : Lh2RawData) : dataDescriptors d =
    locDescriptors d.locs[0] ++ locDescriptors d.locs[1] ++ locDescriptors d.locs[2] ++ locDescriptors d.locs[3] := by
  obtain ⟨l0, l1, l2, l3, rfl⟩ := data_cases d
  exact dataDescriptors_eq l0 l1 l2 l3

/-- Settles O38: each `FIELDS` operation delivers its variant's descriptor list, which is the literal one of R135, R137,
R139 and R141. -/
theorem fieldsDescribeBodies : Obligations.FieldsDescribeBodies := by
  intro s
  refine ⟨fun m => ?move, fun c => ?rgb, fun l => ?loc, fun d => ?data⟩
  case move => rw [exec_moveFields, moveDescriptors_eq, deliver]
  case rgb => rw [exec_rgbFields, rgbDescriptors_eq, deliver]
  case loc => rw [exec_locFields, locDescriptors_eq, deliver]
  case data => simp only [exec_dataFields, dataDescriptors_eq_records, locDescriptors_eq, deliver]

end Sys2Proof.Machine
end

section
/-! Proofs about the order of error detection in `PDEC` and the error kind of the other decoders (60_exceptions.md). -/

namespace Sys2Proof.Machine

theorem except_map_eq_error_iff {α β : Type} (f : α → β) (o : Except ErrorKind α) (k : ErrorKind) :
    o.map f = .error k ↔ o = .error k := by
  cases o <;> simp [Except.map]

theorem exec_pdec_error_iff (buf : List Byte) (s : State) (k : ErrorKind) :
    exec (.pdec buf) s = .next { s with responses := s.responses ++ [.error k] } ↔ payloadDecode buf = .error k := by
  simp only [exec, execPdec, finish_err_iff, except_map_eq_error_iff]

theorem exec_hdec_error_iff (buf : List Byte) (s : State) (k : ErrorKind) :
    exec (.hdec buf) s = .next { s with responses := s.responses ++ [.error k] } ↔ headerDecode buf = .error k := by
  simp only [exec, execHdec, finish_err_iff, except_map_eq_error_iff]

/-- The `DEC` operation of a variant (42_registry_dispatch.md R127). -/
def decInstr : Variant → List Byte → Instr
  | .move => .moveDec
  | .rgb => .rgbDec
  | .data => .dataDec
  | .loc => .locDec

/-- A variant's `DEC` operation raises what the registry's decoder of that variant raises. -/
theorem exec_decInstr_error_iff (v : Variant) (buf : List Byte) (s : State) (k : ErrorKind) :
    exec (decInstr v buf) s = .next { s with responses := s.responses ++ [.error k] } ↔
      bodyDecode v buf = .error k := by
  cases v with
  | move => simp only [decInstr, exec, execMoveDec, bodyDecode, finish_err_iff, except_map_eq_error_iff]
  | rgb => simp only [decInstr, exec, execRgbDec, bodyDecode, finish_err_iff, except_map_eq_error_iff]
  | data => simp only [decInstr, exec, execDataDec, bodyDecode, finish_err_iff, except_map_eq_error_iff]
  | loc => simp only [decInstr, exec, execLocDec, bodyDecode, finish_err_iff, except_map_eq_error_iff]

theorem registryLookup_unsupported {tag : Byte} (h4 : 4 ≤ tag.toNat) :
    registryLookup tag = .error .unsupportedPayloadType := by
  revert tag; decide

/-- Test 2 of `PDEC`: an invalid tag, whatever follows it. -/
theorem payloadDecode_unsupported {buf : List Byte} (h : 20 ≤ buf.length) (h4 : 4 ≤ (buf.getD 19 0).toNat) :
    payloadDecode buf = .error .unsupportedPayloadType := by
  obtain ⟨_, _, hsteps⟩ := payloadDecode_long h
  rw [hsteps, registryLookup_unsupported h4, Except.bind]

/-- Test 3 of `PDEC`: a valid tag whose body is cut short. -/
theorem payloadDecode_short_body {buf : List Byte} {row : RegistryRow} (hrow : row ∈ registry) (h : 20 ≤ buf.length)
    (htag : buf.getD 19 0 = row.tag) (hw : buf.length < 20 + row.w) :
    payloadDecode buf = .error .truncatedBuffer := by
  obtain ⟨_, _, hsteps⟩ := payloadDecode_long h
  obtain ⟨_, hlookup, _⟩ := registry_row row hrow
  rw [hsteps, htag, hlookup, Except.bind, if_pos hw]

theorem headerDecode_error {buf : List Byte} {k : ErrorKind} (he : headerDecode buf = .error k) :
    k = .truncatedBuffer := by
  rcases Nat.lt_or_ge buf.length 19 with hshort | hlong
  · rw [headerDecode_short buf hshort] at he
    exact (Except.error.inj he).symm
  · obtain ⟨_, hok, _⟩ := headerDecode_ok buf hlong
    cases hok.symm.trans he

theorem bodyDecode_error {v : Variant} {buf : List Byte} {k : ErrorKind} (he : bodyDecode v buf = .error k) :
    k = .truncatedBuffer := by
  rcases Nat.lt_or_ge buf.length (shapesWidth (bodyShapes v)) with hshort | hlong
  · rw [bodyDecode_short v buf hshort] at he
    exact (Except.error.inj he).symm
  · obtain ⟨_, hok, _⟩ := bodyDecode_ok v buf hlong
    cases hok.symm.trans he

/-- `HDEC` and the body decoders are the header decoder and the four variants' decoders. -/
theorem decoder_cases {mk : List Byte → Instr}
    (hmk : mk ∈ [Instr.hdec, .moveDec, .rgbDec, .locDec, .dataDec]) :
    mk = .hdec ∨ ∃ v, mk = decInstr v := by
  simp only [List.mem_cons, List.not_mem_nil, or_false] at hmk
  obtain h | h | h | h | h := hmk
  · exact .inl h
  · exact .inr ⟨.move, h⟩
  · exact .inr ⟨.rgb, h⟩
  · exact .inr ⟨.loc, h⟩
  · exact .inr ⟨.data, h⟩

/-- Settles O49: each test of `PDEC` is one lemma about `payloadDecode`, and a decoder other than `PDEC` fails only on a
short buffer. -/
theorem pdecTestsInOrder : Obligations.PdecTestsInOrder := by
  refine ⟨fun s buf => ⟨fun hshort => ?length, fun h20 h4 => ?tag, fun row hrow h20 htag hw => ?body⟩,
    fun s buf k mk hmk he => ?others⟩
  case length => exact (exec_pdec_error_iff buf s _).mpr (payloadDecode_short hshort)
  case tag => exact (exec_pdec_error_iff buf s _).mpr (payloadDecode_unsupported h20 h4)
  case body => exact (exec_pdec_error_iff buf s _).mpr (payloadDecode_short_body hrow h20 htag hw)
  case others =>
    obtain rfl | ⟨v, rfl⟩ := decoder_cases hmk
    · exact headerDecode_error ((exec_hdec_error_iff buf s k).mp he)
    · exact bodyDecode_error ((exec_decInstr_error_iff v buf s k).mp he)

end Sys2Proof.Machine
end

section
/-! What each operation delivers, as one outcome of its codec function, and when that outcome is a given result. -/

namespace Sys2Proof.Machine

theorem except_map_eq_ok_iff {α β : Type} (f : α → β) (o : Except ErrorKind α) (y : β) :
    o.map f = .ok y ↔ ∃ x, o = .ok x ∧ f x = y := by
  cases o <;> simp [Except.map]

/-- An outcome is a result response exactly when it is that result. -/
theorem finish_ok_iff (o : Except ErrorKind Result) (s : State) (r : Result) :
    finish o s = .next { s with responses := s.responses ++ [.ok r] } ↔ o = .ok r := by
  constructor
  · intro h
    have hr : .ok r = responseOf o := deliver_injective (s := s) ((finish_next_iff o s _).mp h)
    cases o with
    | ok r' => simpa [responseOf, eq_comm] using hr
    | error k => simp [responseOf] at hr
  · rintro rfl
    rfl

theorem exec_fenc (v : Int) {n : Nat} (e : Endian) (g : Bool) (s : State) (h1 : 1 ≤ n) (h8 : n ≤ 8) :
    exec (.fenc v n e g) s = finish ((fenc v n e g).map .bytes) s := by
  rw [exec, execFenc, if_pos ((lengthOk_iff n).mpr ⟨h1, h8⟩)]

theorem exec_fdec {b : List Byte} {n : Nat} (e : Endian) (g : Bool) (s : State) (h1 : 1 ≤ n) (h8 : n ≤ 8)
    (hb : b.length = n) : exec (.fdec b n e g) s = finish (.ok (.value (fdec b n e g))) s := by
  rw [exec, execFdec, if_pos ((lengthOk_iff n).mpr ⟨h1, h8⟩), if_pos hb]

theorem exec_henc (h : Header) (s : State) : exec (.henc h) s = finish ((headerEncode h).map .bytes) s := by
  rw [exec, execHenc]

theorem exec_hdec (buf : List Byte) (s : State) :
    exec (.hdec buf) s = finish ((headerDecode buf).map fun r => .header r.1 r.2) s := by
  rw [exec, execHdec]

theorem exec_lookup (tag : Byte) (s : State) :
    exec (.lookup tag) s = finish ((registryLookup tag).map fun r => .registry r.w r.vid) s := by
  rw [exec, execLookup]

/-- The four `DEC` operations are the registry's decoders (42_registry_dispatch.md R127). -/
theorem exec_decInstr (v : Variant) (buf : List Byte) (s : State) :
    exec (decInstr v buf) s = finish ((bodyDecode v buf).map .body) s := by
  cases v with
  | move => rw [decInstr, exec, execMoveDec, bodyDecode]; cases moveDecode buf <;> rfl
  | rgb => rw [decInstr, exec, execRgbDec, bodyDecode]; cases rgbDecode buf <;> rfl
  | data => rw [decInstr, exec, execDataDec, bodyDecode]; cases dataDecode buf <;> rfl
  | loc => rw [decInstr, exec, execLocDec, bodyDecode]; cases locDecode buf <;> rfl

theorem exec_penc {typ : Byte} {x : List Int} (h : Header) (s : State) (hx : slotsOk typ x = true) :
    exec (.penc h typ x) s = finish ((payloadEncode h typ x).map .bytes) s := by
  rw [exec, execPenc, if_pos hx]

/-- `PENC` of a payload record, whose slots always suit its tag. -/
theorem exec_penc_payload (p : Payload) (s : State) : exec (.penc p.header (payloadTyp p) (bodySlots p.body)) s =
    finish ((payloadEncode p.header (payloadTyp p) (bodySlots p.body)).map .bytes) s :=
  exec_penc p.header s (slotsOk_payload p)

theorem exec_pdec (buf : List Byte) (s : State) :
    exec (.pdec buf) s = finish ((payloadDecode buf).map fun r => .payload r.1 r.2) s := by
  rw [exec, execPdec]

theorem exec_henc_ok_iff (h : Header) (s : State) (b : List Byte) :
    exec (.henc h) s = .next { s with responses := s.responses ++ [.ok (.bytes b)] } ↔ headerEncode h = .ok b := by
  simp [exec_henc, finish_ok_iff, except_map_eq_ok_iff]

theorem exec_hdec_ok_iff (buf : List Byte) (s : State) (h : Header) (vmis : Bool) :
    exec (.hdec buf) s = .next { s with responses := s.responses ++ [.ok (.header h vmis)] } ↔
      headerDecode buf = .ok (h, vmis) := by
  simp [exec_hdec, finish_ok_iff, except_map_eq_ok_iff]

theorem exec_lookup_ok_iff (tag : Byte) (s : State) (w : Nat) (vid : Variant) :
    exec (.lookup tag) s = .next { s with responses := s.responses ++ [.ok (.registry w vid)] } ↔
      ∃ row, registryLookup tag = .ok row ∧ row.w = w ∧ row.vid = vid := by
  simp [exec_lookup, finish_ok_iff, except_map_eq_ok_iff]

theorem exec_lookup_error_iff (tag : Byte) (s : State) (k : ErrorKind) :
    exec (.lookup tag) s = .next { s with responses := s.responses ++ [.error k] } ↔ registryLookup tag = .error k := by
  simp [exec_lookup, finish_err_iff, except_map_eq_error_iff]

theorem exec_decInstr_ok_iff (v : Variant) (buf : List Byte) (s : State) (x : Body) :
    exec (decInstr v buf) s = .next { s with responses := s.responses ++ [.ok (.body x)] } ↔
      bodyDecode v buf = .ok x := by
  simp [exec_decInstr, finish_ok_iff, except_map_eq_ok_iff]

theorem exec_henc_error_iff (h : Header) (s : State) (k : ErrorKind) :
    exec (.henc h) s = .next { s with responses := s.responses ++ [.error k] } ↔ headerEncode h = .error k := by
  simp [exec_henc, finish_err_iff, except_map_eq_error_iff]

theorem exec_penc_payload_ok_iff (p : Payload) (s : State) (b : List Byte) :
    exec (.penc p.header (payloadTyp p) (bodySlots p.body)) s =
      .next { s with responses := s.responses ++ [.ok (.bytes b)] } ↔
      payloadEncode p.header (payloadTyp p) (bodySlots p.body) = .ok b := by
  simp [exec_penc_payload, finish_ok_iff, except_map_eq_ok_iff]

theorem exec_pdec_ok_iff (buf : List Byte) (s : State) (p : Payload) (vmis : Bool) :
    exec (.pdec buf) s = .next { s with responses := s.responses ++ [.ok (.payload p vmis)] } ↔
      payloadDecode buf = .ok (p, vmis) := by
  simp [exec_pdec, finish_ok_iff, except_map_eq_ok_iff]

end Sys2Proof.Machine
end

section
/-! Proofs about the field converter (40_field_converter.md sections 1 to 5). -/

namespace Sys2Proof.Machine

/-! ## FENC -/

/-- The place of byte `i` of an `n`-byte field (40_field_converter.md R91). -/
def placeOf : Endian → Nat → Nat → Nat
  | .big, n, i => n - 1 - i
  | .little, _, i => i

/-- Byte `i` of an encoding is the digit at its place. -/
theorem inOrder_bigEndianBytes_getD (e : Endian) (u : Nat) {n i : Nat} (hi : i < n) :
    ((inOrder e (bigEndianBytes u n)).getD i 0).toNat = u / 256 ^ placeOf e n i % 256 := by
  cases e with
  | big => exact bigEndianBytes_getD u n i hi
  | little =>
    have hrev : (bigEndianBytes u n).reverse.getD i 0 = (bigEndianBytes u n).getD (n - 1 - i) 0 := by
      rw [List.getD_eq_getElem _ _ (by simpa using hi), List.getD_eq_getElem _ _ (by simp; omega), List.getElem_reverse]
      simp
    have hplace : n - 1 - (n - 1 - i) = i := by omega
    rw [inOrder, hrev, bigEndianBytes_getD u n _ (by omega), hplace, placeOf]

/-- The bit pattern `fenc` lays out is `v mod 2^(8L)`. -/
theorem cast_pattern (v : Int) (n : Nat) :
    (((v % ((2 ^ (8 * n) : Nat) : Int)).toNat : Nat) : Int) = v % 2 ^ (8 * n) := by
  rw [Int.toNat_of_nonneg (Int.emod_nonneg _ (by positivity))]
  push_cast
  rfl

/-- The bytes `fenc` gives are the digits of `v mod 2^(8L)`. -/
theorem fenc_digits {v : Int} {n : Nat} {e : Endian} {g : Bool} {b : List Byte} (h : fenc v n e g = .ok b) {i : Nat}
    (hi : i < n) : (((b.getD i 0).toNat : Nat) : Int) = v % 2 ^ (8 * n) / 256 ^ placeOf e n i % 256 := by
  have hfits : ValueFits v n g := by
    by_contra hnot
    cases (fenc_of_not_fits e hnot).symm.trans h
  obtain rfl := Except.ok.inj ((fenc_of_fits e hfits).symm.trans h)
  rw [inOrder_bigEndianBytes_getD e _ hi, ← cast_pattern]
  push_cast
  rfl

/-- Settles O23: the digits by `fenc_digits`, the overflow by the range test. -/
theorem fencWritesDigits : Obligations.FencWritesDigits := by
  intro s v n e g h1 h8
  rw [exec_fenc v e g s h1 h8]
  obtain ⟨hfits, b, hb, hlen⟩ | ⟨hnot, herr⟩ := fenc_cases v n e g
  · refine ⟨fun _ => ⟨b, by rw [hb]; rfl, hlen, fun i hi => ?_⟩, fun hnot => absurd hfits hnot⟩
    rw [fenc_digits hb hi]
    cases e <;> rfl
  · exact ⟨fun hfits => absurd hfits hnot, fun _ => by rw [herr]; rfl⟩

/-! ## FDEC -/

/-- `fdec` by its pattern: two's complement when signed (40_field_converter.md R92). -/
theorem fdec_eq_pattern (b : List Byte) (n : Nat) (e : Endian) (g : Bool) : fdec b n e g =
    if g = true ∧ 2 ^ (8 * n - 1) ≤ patternOf e b then (patternOf e b : Int) - 2 ^ (8 * n) else patternOf e b := by
  cases g <;> simp [fdec, sext, zext]

/-- Settles O24: the pattern is the sum by place. -/
theorem fdecReadsPattern : Obligations.FdecReadsPattern := by
  intro s b n e g h1 h8 hb
  rw [exec_fdec e g s h1 h8 hb, fdec_eq_pattern, patternOf_sum e b n hb]
  cases e <;> rfl

/-- Settles O25: the two tests of the operand domain. -/
theorem converterRefusesOutOfDomain : Obligations.ConverterRefusesOutOfDomain := by
  intro s v b n e g
  refine ⟨fun hn => ?length, fun h1 h8 hb => ?count⟩
  case length =>
    have hbad : ¬ lengthOk n = true := by rw [lengthOk_iff]; omega
    simp only [exec, execFenc, execFdec, if_neg hbad, and_self]
  case count => rw [exec, execFdec, if_pos ((lengthOk_iff n).mpr ⟨h1, h8⟩), if_neg hb]

/-! ## Round trips -/

/-- Decoding an encoding gives the value (40_field_converter.md R97 (a)). -/
theorem fdec_of_fenc {v : Int} {n : Nat} {e : Endian} {g : Bool} {b : List Byte} (h1 : 1 ≤ n)
    (h : fenc v n e g = .ok b) : b.length = n ∧ fdec b n e g = v := by
  obtain ⟨hfits, b', hb', hlen⟩ | ⟨_, herr⟩ := fenc_cases v n e g
  · obtain rfl := Except.ok.inj (hb'.symm.trans h)
    refine ⟨hlen, valueFits_emod_inj h1 (fdec_fits b' n e g h1 hlen) hfits ?_⟩
    obtain rfl := Except.ok.inj ((fenc_of_fits e hfits).symm.trans h)
    rw [fdec_emod _ n e g hlen, patternOf_inOrder, be_bigEndianBytes, pow_256, Int.natCast_mod, cast_pattern]
    push_cast
    exact Int.emod_emod _ _
  · cases herr.symm.trans h

/-- Encoding a decoded value gives the bytes (40_field_converter.md R97 (b)). -/
theorem fenc_fdec {b : List Byte} {n : Nat} (e : Endian) (g : Bool) (h1 : 1 ≤ n) (hb : b.length = n) :
    fenc (fdec b n e g) n e g = .ok b := by
  rw [fenc_of_fits e (fdec_fits b n e g h1 hb), fdec_emod b n e g hb, Int.toNat_natCast, patternOf_eq_be]
  have hbytes : bigEndianBytes (be (inOrder e b)) n = inOrder e b := by
    simpa [hb] using bigEndianBytes_be (inOrder e b)
  rw [hbytes, inOrder_inOrder]

/-- Settles O26: a value that fits has an encoding, and it decodes to the value. -/
theorem converterValueRoundTrip : Obligations.ConverterValueRoundTrip := by
  intro v n e g h1 hfits
  obtain ⟨_, b, hb, _⟩ | ⟨hnot, _⟩ := fenc_cases v n e g
  · exact ⟨b, hb, fdec_of_fenc h1 hb⟩
  · exact absurd hfits hnot

/-- Settles O27: `fenc_fdec`. -/
theorem converterByteRoundTrip : Obligations.ConverterByteRoundTrip :=
  fun _ _ e g h1 hb => fenc_fdec e g h1 hb

/-- Settles O28: existence by encoding the value, uniqueness because bytes are the encoding of what they decode to. -/
theorem fdecIsBijective : Obligations.FdecIsBijective := by
  intro n e g h1
  refine ⟨fun b hb => fdec_fits b n e g h1 hb, fun v hfits => ?_⟩
  obtain ⟨b, hb, hdec⟩ := converterValueRoundTrip v n e g h1 hfits
  refine ⟨b, hdec, ?_⟩
  rintro c ⟨hc, rfl⟩
  exact Except.ok.inj ((fenc_fdec e g h1 hc).symm.trans hb)

/-! ## The byte orders -/

theorem fenc_little (v : Int) (n : Nat) (g : Bool) : fenc v n .little g = (fenc v n .big g).map List.reverse := by
  by_cases h : ValueFits v n g
  · rw [fenc_of_fits _ h, fenc_of_fits _ h]; rfl
  · rw [fenc_of_not_fits _ h, fenc_of_not_fits _ h]; rfl

theorem fdec_little (b : List Byte) (n : Nat) (g : Bool) : fdec b n .little g = fdec b.reverse n .big g := by
  have hpattern : patternOf .little b = patternOf .big b.reverse := (be_reverse b).symm
  simp only [fdec, hpattern]

/-- Settles O29: `fenc_little` and `fdec_little`. -/
theorem byteOrdersAreReverses : Obligations.ByteOrdersAreReverses := ⟨fenc_little, fdec_little⟩

/-- One byte is its own reverse. -/
theorem fenc_one_little (v : Int) (g : Bool) : fenc v 1 .little g = fenc v 1 .big g := by
  rw [fenc_little]
  obtain ⟨_, b, hb, hlen⟩ | ⟨_, herr⟩ := fenc_cases v 1 .big g
  · obtain ⟨x, rfl⟩ := List.length_eq_one_iff.mp hlen
    rw [hb]; rfl
  · rw [herr]; rfl

/-- Settles O30: the two orders are reverses, and a list of one byte is its own reverse. -/
theorem oneByteHasNoOrder : Obligations.OneByteHasNoOrder := by
  intro s v b g
  constructor
  · rw [exec_fenc v .big g s le_rfl (by omega), exec_fenc v .little g s le_rfl (by omega), fenc_one_little]
  · rw [exec_fdec .big g s le_rfl (by omega) rfl, exec_fdec .little g s le_rfl (by omega) rfl, fdec_little,
      List.reverse_singleton]

/-! ## The list helpers -/

theorem shapesWidth_cons (d : FieldShape) (ds : List FieldShape) :
    shapesWidth (d :: ds) = d.length + shapesWidth ds := by
  simp [shapesWidth]

/-- Values come back from their encoding, which is as long as the shapes say (40_field_converter.md R100). -/
theorem decfields_encfields {ds : List FieldShape} (hpos : ∀ d ∈ ds, 1 ≤ d.length) {vs : List Int} {b : List Byte}
    (hlen : vs.length = ds.length) (h : encfields (describeAll ds vs) = .ok b) :
    b.length = shapesWidth ds ∧ decfields ds b = vs := by
  induction ds generalizing vs b with
  | nil =>
    obtain rfl := List.length_eq_zero_iff.mp hlen
    cases h
    exact ⟨rfl, rfl⟩
  | cons d ds ih =>
    obtain ⟨v, vs, rfl⟩ := List.exists_cons_of_length_eq_add_one hlen
    rw [encfields_describe_cons] at h
    cases hc : fenc v d.length d.endianness d.signed with
    | error k => simp [hc, Except.bind] at h
    | ok c =>
      cases hcs : encfields (describeAll ds vs) with
      | error k => simp [hc, hcs, Except.bind, Except.map] at h
      | ok cs =>
        obtain rfl : c ++ cs = b := by simpa [hc, hcs, Except.bind, Except.map] using h
        obtain ⟨hcl, hcv⟩ := fdec_of_fenc (hpos d (by simp)) hc
        obtain ⟨hcsl, hcsv⟩ := ih (fun d' hd' => hpos d' (by simp [hd'])) (by simpa using hlen) hcs
        refine ⟨by simp [shapesWidth_cons, hcl, hcsl], ?_⟩
        rw [decfields, List.take_left' hcl, List.drop_left' hcl, hcv, hcsv]

/-- Bytes come back from their values (40_field_converter.md R100). -/
theorem encfields_decfields {ds : List FieldShape} (hpos : ∀ d ∈ ds, 1 ≤ d.length) {b : List Byte}
    (hlen : b.length = shapesWidth ds) : encfields (describeAll ds (decfields ds b)) = .ok b := by
  induction ds generalizing b with
  | nil =>
    obtain rfl := List.length_eq_zero_iff.mp hlen
    rfl
  | cons d ds ih =>
    rw [shapesWidth_cons] at hlen
    have htake : (b.take d.length).length = d.length := by simp; omega
    have hrest := ih (fun d' hd' => hpos d' (by simp [hd'])) (b := b.drop d.length) (by simp; omega)
    rw [decfields, encfields_describe_cons, fenc_fdec _ _ (hpos d (by simp)) htake, hrest]
    simp [Except.bind, Except.map]

/-- Settles O31: one induction over the shapes for each direction. -/
theorem listHelpersAreInverse : Obligations.ListHelpersAreInverse :=
  fun _ hpos => ⟨fun _ _ hlen h => decfields_encfields hpos hlen h, fun _ hlen => encfields_decfields hpos hlen⟩

end Sys2Proof.Machine
end

section
/-! Proofs about the header and the registry (41_header.md, 42_registry_dispatch.md). -/

namespace Sys2Proof.Machine

/-! ## The header -/

theorem fdec_unsigned (b : List Byte) (n : Nat) : fdec b n .big false = be b := rfl

theorem memRead_whole {b : List Byte} {n : Nat} (h : b.length = n) : memRead b 0 n = b := by
  rw [memRead, List.drop_zero, List.take_of_length_le h.le]

/-- The flag of a one-byte version (41_header.md R115). -/
theorem versionMismatch_byte (x : Byte) : versionMismatch x.toNat = decide (x ≠ 1) := by revert x; decide

theorem headerDecode_bytes {buf : List Byte} (h : 19 ≤ buf.length) : headerDecode buf =
    .ok (⟨be (memRead buf 0 8), be (memRead buf 8 8), be (memRead buf 16 2), (buf.getD 18 0).toNat⟩,
      decide (buf.getD 18 0 ≠ 1)) := by
  rw [headerDecode_eq, if_neg (by omega), memRead_one _ _ (by omega), fdec_one_unsigned, versionMismatch_byte,
    fdec_unsigned, fdec_unsigned, fdec_unsigned]

/-- `HDEC` of an encoded header is that header, whatever follows it (41_header.md R114). -/
theorem headerDecode_of_encode {h : Header} {buf : List Byte} (hlen : 19 ≤ buf.length)
    (henc : headerEncode h = .ok (memRead buf 0 19)) : headerDecode buf = .ok (h, versionMismatch h.version) := by
  obtain ⟨hd, hdec, hslots⟩ := headerDecode_ok buf hlen
  obtain ⟨_, hvalues⟩ := decfields_encfields (vs := headerSlots h) headerShapes_pos rfl henc
  obtain rfl := headerSlots_inj (hslots.trans hvalues)
  exact hdec

/-- `HENC` of a decoded header is its 19 bytes (41_header.md R114). -/
theorem headerEncode_of_decode {h : Header} {vmis : Bool} {buf : List Byte} (hlen : 19 ≤ buf.length)
    (hdec : headerDecode buf = .ok (h, vmis)) : headerEncode h = .ok (memRead buf 0 19) := by
  obtain ⟨hd, hdec', hslots⟩ := headerDecode_ok buf hlen
  cases hdec'.symm.trans hdec
  rw [headerEncode, headerFields, hslots]
  exact encfields_decfields headerShapes_pos (memRead_length buf 0 19 hlen)

/-- An encoded header holds its values at the offsets of 41_header.md R110. -/
theorem headerEncode_readings {h : Header} {b : List Byte} (hlen : b.length = 19) (henc : headerEncode h = .ok b) :
    (be (memRead b 0 8) : Int) = h.destination ∧ (be (memRead b 8 8) : Int) = h.source ∧
      (be (memRead b 16 2) : Int) = h.swarmId ∧ (be (memRead b 18 1) : Int) = h.version := by
  have hdec := headerDecode_of_encode hlen.ge (by rwa [memRead_whole hlen])
  rw [headerDecode_eq, if_neg (by omega)] at hdec
  injection hdec with hpair
  injection hpair with hheader _
  subst hheader
  exact ⟨rfl, rfl, rfl, rfl⟩

/-- Settles O33: `HENC` encodes exactly the headers in range, and their bytes read back as the four values. -/
theorem hencWritesHeader : Obligations.HencWritesHeader := by
  refine fun s h => ⟨fun hr => ?_, fun hr => (exec_henc_error_iff h s _).mpr (headerEncode_overflow hr)⟩
  obtain ⟨b, henc, hlen⟩ := headerEncode_ok hr
  exact ⟨b, (exec_henc_ok_iff h s b).mpr henc, hlen, headerEncode_readings hlen henc⟩

/-- Settles O34: the readings of a long buffer, the error of a short one. -/
theorem hdecReadsHeader : Obligations.HdecReadsHeader := fun s buf =>
  ⟨fun hlong => (exec_hdec_ok_iff buf s _ _).mpr (headerDecode_bytes hlong),
    fun hshort => (exec_hdec_error_iff buf s _).mpr (headerDecode_short buf hshort)⟩

/-- Settles O35: both ways through the list helpers' round trips. -/
theorem headerRoundTrip : Obligations.HeaderRoundTrip := by
  refine ⟨fun s h hr => ?there, fun s b hlen => ?back⟩
  case there =>
    obtain ⟨b, henc, hlen⟩ := headerEncode_ok hr
    exact ⟨b, (exec_henc_ok_iff h s b).mpr henc,
      (exec_hdec_ok_iff b s h _).mpr (headerDecode_of_encode hlen.ge (by rwa [memRead_whole hlen]))⟩
  case back =>
    obtain ⟨h, hdec, _⟩ := headerDecode_ok b hlen.ge
    have henc := headerEncode_of_decode hlen.ge hdec
    rw [memRead_whole hlen] at henc
    exact ⟨h, _, (exec_hdec_ok_iff b s h _).mpr hdec, (exec_henc_ok_iff h s b).mpr henc⟩

/-! ## The registry -/

/-- A registry row is answered under its tag. -/
theorem exec_lookup_row {row : RegistryRow} (h : row ∈ registry) (s : State) : exec (.lookup row.tag) s =
    .next { s with responses := s.responses ++ [.ok (.registry row.w row.vid)] } := by
  obtain ⟨_, hlookup, _⟩ := registry_row row h
  exact (exec_lookup_ok_iff _ s _ _).mpr ⟨row, hlookup, rfl, rfl⟩

/-- Settles O36: the four rows, and the tags that have none. -/
theorem lookupAnswersFourTags : Obligations.LookupAnswersFourTags := fun s =>
  ⟨exec_lookup_row (row := ⟨0, 4, .move⟩) (by decide) s, exec_lookup_row (row := ⟨1, 3, .rgb⟩) (by decide) s,
    exec_lookup_row (row := ⟨2, 40, .data⟩) (by decide) s, exec_lookup_row (row := ⟨3, 10, .loc⟩) (by decide) s,
    fun tag h4 => (exec_lookup_error_iff tag s _).mpr (registryLookup_unsupported h4)⟩

/-- Settles O37: a row's width is its shapes' by `registry_row`; the two tables are compared row by row. -/
theorem widthsAreConsistent : Obligations.WidthsAreConsistent :=
  ⟨fun row h => (registry_row row h).1, by decide, by decide⟩

end Sys2Proof.Machine
end

section
/-! Proofs about the body variants (43_body_variants.md). -/

namespace Sys2Proof.Machine

/-! ## The decoders, byte by byte -/

theorem bodyDecode_move_bytes {buf : List Byte} (h : 4 ≤ buf.length) : bodyDecode .move buf = .ok (.move
    ⟨(buf.getD 0 0).toInt, (buf.getD 1 0).toInt, (buf.getD 2 0).toInt, (buf.getD 3 0).toInt⟩) := by
  rw [bodyDecode, moveDecode_eq, if_neg (by omega), memRead_one _ _ (by omega), memRead_one _ _ (by omega),
    memRead_one _ _ (by omega), memRead_one _ _ (by omega)]
  simp only [fdec_one_signed, Except.map]

theorem bodyDecode_rgb_bytes {buf : List Byte} (h : 3 ≤ buf.length) : bodyDecode .rgb buf = .ok (.rgb
    ⟨(buf.getD 0 0).toNat, (buf.getD 1 0).toNat, (buf.getD 2 0).toNat⟩) := by
  rw [bodyDecode, rgbDecode_eq, if_neg (by omega), memRead_one _ _ (by omega), memRead_one _ _ (by omega),
    memRead_one _ _ (by omega)]
  simp only [fdec_one_unsigned, Except.map]

/-- A location record reads ten bytes only. -/
theorem locRecord_memRead (buf : List Byte) : locRecord (memRead buf 0 10) = locRecord buf := by
  simp only [locRecord_eq, memRead_memRead buf 0 10 0 8 (by omega), memRead_memRead buf 0 10 8 1 (by omega),
    memRead_memRead buf 0 10 9 1 (by omega), Nat.zero_add]

theorem locRecord_bytes {buf : List Byte} {a : Nat} (h : a + 10 ≤ buf.length) : locRecord (memRead buf a 10) =
    ⟨be (memRead buf a 8), (buf.getD (a + 8) 0).toNat, (buf.getD (a + 9) 0).toInt⟩ := by
  rw [locRecord_eq, memRead_memRead _ _ _ _ _ (by omega), memRead_memRead _ _ _ _ _ (by omega),
    memRead_memRead _ _ _ _ _ (by omega), memRead_one buf (a + 8) (by omega), memRead_one buf (a + 9) (by omega),
    fdec_unsigned, fdec_one_unsigned, fdec_one_signed, Nat.add_zero]

theorem bodyDecode_loc {buf : List Byte} (h : 10 ≤ buf.length) :
    bodyDecode .loc buf = .ok (.loc (locRecord (memRead buf 0 10))) := by
  rw [bodyDecode, locDecode_ok buf h, locRecord_memRead, Except.map]

/-- A data body is its four ten-byte chunks (43_body_variants.md R147). -/
theorem bodyDecode_data {buf : List Byte} (h : 40 ≤ buf.length) : bodyDecode .data buf =
    .ok (.data ⟨#v[locRecord (memRead buf 0 10), locRecord (memRead buf 10 10), locRecord (memRead buf 20 10),
      locRecord (memRead buf 30 10)]⟩) := by
  rw [bodyDecode, dataDecode_eq, if_neg (by omega)]
  simp only [chunkRecord_eq, Except.map]

/-- Settles O39: each variant's bytes, and the error below its width. -/
theorem moveAndRgbDecode : Obligations.MoveAndRgbDecode := fun s buf =>
  ⟨fun h => (exec_decInstr_ok_iff .move buf s _).mpr (bodyDecode_move_bytes h),
    fun h => (exec_decInstr_error_iff .move buf s _).mpr (bodyDecode_short .move buf h),
    fun h => (exec_decInstr_ok_iff .rgb buf s _).mpr (bodyDecode_rgb_bytes h),
    fun h => (exec_decInstr_error_iff .rgb buf s _).mpr (bodyDecode_short .rgb buf h)⟩

/-- Settles O40: each record is `locRecord_bytes` at its offset. -/
theorem locAndDataDecode : Obligations.LocAndDataDecode := by
  intro s buf
  refine ⟨fun h => (exec_decInstr_ok_iff .loc buf s _).mpr ?loc,
    fun h => (exec_decInstr_error_iff .loc buf s _).mpr (bodyDecode_short .loc buf h),
    fun h => (exec_decInstr_ok_iff .data buf s _).mpr ?data,
    fun h => (exec_decInstr_error_iff .data buf s _).mpr (bodyDecode_short .data buf h)⟩
  case loc => rw [bodyDecode_loc h, locRecord_bytes (by omega)]
  case data =>
    rw [bodyDecode_data h, locRecord_bytes (by omega), locRecord_bytes (by omega), locRecord_bytes (by omega),
      locRecord_bytes (by omega)]

/-! ## Lh2RawData is four records -/

theorem exec_locFields_iff (l : Lh2RawLocation) (s : State) (fds : List FieldDescriptor) :
    exec (.locFields l) s = .next { s with responses := s.responses ++ [.ok (.descriptors fds)] } ↔
      locDescriptors l = fds := by
  rw [exec, execLocFields, finish_ok_iff, Except.ok.injEq, Result.descriptors.injEq]

theorem memRead_middle (pre mid post : List Byte) :
    memRead (pre ++ mid ++ post) pre.length mid.length = mid := by
  simp [memRead]

/-- Settles O41: descriptors by `dataDescriptors_eq_records`, the decode because chunk `k` of the concatenation is the
`k`-th chunk. -/
theorem dataIsFourRecords : Obligations.DataIsFourRecords := by
  refine ⟨fun s d f0 f1 f2 f3 h0 h1 h2 h3 => ?fields, fun s c0 c1 c2 c3 h0 h1 h2 h3 => ?dec⟩
  case fields =>
    rw [exec_locFields_iff] at h0 h1 h2 h3
    rw [exec_dataFields, dataDescriptors_eq_records, h0, h1, h2, h3, deliver]
  case dec =>
    have chunk {c : List Byte} (h : c.length = 10) : exec (.locDec c) s =
        .next { s with responses := s.responses ++ [.ok (.body (.loc (locRecord c)))] } :=
      (exec_decInstr_ok_iff .loc c s _).mpr (by rw [bodyDecode_loc h.ge, memRead_whole h])
    refine ⟨_, _, _, _, chunk h0, chunk h1, chunk h2, chunk h3, (exec_decInstr_ok_iff .data _ s _).mpr ?_⟩
    have r0 : memRead (c0 ++ c1 ++ c2 ++ c3) 0 10 = c0 := by simpa [h0] using memRead_middle [] c0 (c1 ++ c2 ++ c3)
    have r1 : memRead (c0 ++ c1 ++ c2 ++ c3) 10 10 = c1 := by simpa [h0, h1] using memRead_middle c0 c1 (c2 ++ c3)
    have r2 : memRead (c0 ++ c1 ++ c2 ++ c3) 20 10 = c2 := by simpa [h0, h1, h2] using memRead_middle (c0 ++ c1) c2 c3
    have r3 : memRead (c0 ++ c1 ++ c2 ++ c3) 30 10 = c3 := by
      simpa [h0, h1, h2, h3] using memRead_middle (c0 ++ c1 ++ c2) c3 []
    rw [bodyDecode_data (by simp [h0, h1, h2, h3]), r0, r1, r2, r3]

/-! ## Round trips -/

/-- Encoding a body in range (43_body_variants.md R148). -/
theorem bodyEncode_ok {x : Body} (hr : BodyInRange x) : ∃ b, encfields (bodyDescriptors x) = .ok b ∧
    b.length = shapesWidth (bodyShapes (bodyVariant x)) := by
  obtain ⟨_, b, hb, hlen⟩ | ⟨⟨f, hf, hnot⟩, _⟩ := encfields_cases (bodyDescriptors x)
  · exact ⟨b, hb, hlen.trans (bodyDescriptors_width x)⟩
  · exact absurd ((bodyInRange_iff x).mp hr f hf) hnot

/-- Decoding an encoded body is that body. -/
theorem bodyDecode_of_encode {x : Body} {b : List Byte} (henc : encfields (bodyDescriptors x) = .ok b) :
    bodyDecode (bodyVariant x) b = .ok x := by
  rw [bodyDescriptors_eq] at henc
  obtain ⟨hlen, hvalues⟩ := decfields_encfields (bodyShapes_pos _) (bodySlots_length x) henc
  obtain ⟨y, hdec, hv, hslots⟩ := bodyDecode_ok (bodyVariant x) b hlen.ge
  rw [memRead_whole hlen, hvalues] at hslots
  rwa [bodySlots_inj hv hslots] at hdec

/-- What a body decoder answers is encoded to the bytes it read. -/
theorem bodyEncode_of_slots {x : Body} {b : List Byte} (hlen : b.length = shapesWidth (bodyShapes (bodyVariant x)))
    (hslots : bodySlots x = decfields (bodyShapes (bodyVariant x)) b) : encfields (bodyDescriptors x) = .ok b := by
  rw [bodyDescriptors_eq, hslots]
  exact encfields_decfields (bodyShapes_pos _) hlen

/-- Settles O42: a body is decided by its variant and slots, and the list helpers carry the slots both ways. -/
theorem bodyRoundTrip : Obligations.BodyRoundTrip := by
  refine ⟨fun x hr => ?there, fun vid b hlen => ?back⟩
  case there =>
    obtain ⟨b, henc, hlen⟩ := bodyEncode_ok hr
    exact ⟨b, henc, hlen, bodyDecode_of_encode henc⟩
  case back =>
    obtain ⟨x, hdec, rfl, hslots⟩ := bodyDecode_ok vid b hlen.ge
    rw [memRead_whole hlen] at hslots
    exact ⟨x, rfl, hdec, bodyEncode_of_slots hlen hslots⟩

end Sys2Proof.Machine
end

section
/-! Proofs about the payload (44_payload.md) and about which bytes a decoder reads (20_memory.md section 6). -/

namespace Sys2Proof.Machine

/-! ## What `PENC` gives -/

/-- `PENC` gives bytes exactly when header and body encode, and then it gives header, tag, body (44_payload.md R161). -/
theorem payloadEncode_ok_iff (p : Payload) (b : List Byte) :
    payloadEncode p.header (payloadTyp p) (bodySlots p.body) = .ok b ↔ ∃ hb bb, headerEncode p.header = .ok hb ∧
      encfields (bodyDescriptors p.body) = .ok bb ∧ hb ++ [payloadTyp p] ++ bb = b := by
  rw [payloadEncode_eq]
  cases headerEncode p.header <;> cases encfields (bodyDescriptors p.body) <;> simp [Except.bind, Except.map]

theorem headerEncode_length {h : Header} {hb : List Byte} (henc : headerEncode h = .ok hb) : hb.length = 19 :=
  (decfields_encfields (vs := headerSlots h) headerShapes_pos rfl henc).1

theorem bodyEncode_length {x : Body} {bb : List Byte} (henc : encfields (bodyDescriptors x) = .ok bb) :
    bb.length = shapesWidth (bodyShapes (bodyVariant x)) := by
  rw [bodyDescriptors_eq] at henc
  exact (decfields_encfields (bodyShapes_pos _) (bodySlots_length x) henc).1

/-- Settles O45: header and body encode because they are in range, and `PENC` joins them. -/
theorem pencWritesFrame : Obligations.PencWritesFrame := by
  rintro s p ⟨hheader, hbody⟩
  obtain ⟨hb, henc, hlen⟩ := headerEncode_ok hheader
  obtain ⟨bb, benc, blen⟩ := bodyEncode_ok hbody
  refine ⟨hb, bb, (exec_henc_ok_iff _ s hb).mpr henc, benc,
    (exec_penc_payload_ok_iff p s _).mpr ((payloadEncode_ok_iff p _).mpr ⟨hb, bb, henc, benc, rfl⟩), hlen, ?_⟩
  rw [blen]
  cases p.body <;> rfl

/-- Settles O46: `encfields` of a concatenation fails or succeeds part by part. -/
theorem pencEncodesConsumerFields : Obligations.PencEncodesConsumerFields := by
  intro p
  rw [payloadEncode_eq, List.append_assoc, encfields_append, encfields_append, encfields_tag, headerEncode]
  cases encfields (headerFields p.header) <;> cases encfields (bodyDescriptors p.body) <;>
    simp [Except.bind, Except.map]

/-- Settles O47: an invalid tag has no slot count and no registry row. -/
theorem pencUnsupportedComesFirst : Obligations.PencUnsupportedComesFirst := by
  intro s h typ x h4
  have hslots : slotsOk typ x = true := by
    rw [slotsOk_iff]
    refine ⟨?_, ?_, ?_, ?_⟩ <;> (rintro rfl; exact absurd h4 (by decide))
  rw [exec_penc h s hslots, payloadEncode_unsupported h typ x h4]
  rfl

theorem exec_penc_refused {typ : Byte} {x : List Int} (h : Header) (s : State) (hx : ¬ slotsOk typ x = true) :
    exec (.penc h typ x) s = .refused .slotCount := by
  rw [exec, execPenc, if_neg hx]

/-- Settles O48: the slot counts of `slotsOk_iff`. -/
theorem pencRefusesSlotCount : Obligations.PencRefusesSlotCount := by
  intro s h x
  refine ⟨fun hx => exec_penc_refused h s fun hok => ?_, fun hx => exec_penc_refused h s fun hok => ?_,
    fun hx => exec_penc_refused h s fun hok => ?_, fun hx => exec_penc_refused h s fun hok => ?_⟩ <;>
    obtain ⟨h0, h1, h2, h3⟩ := (slotsOk_iff _ x).mp hok
  exacts [hx (h0 rfl), hx (h1 rfl), hx (h2 rfl), hx (h3 rfl)]

/-! ## What `PDEC` gives -/

/-- Settles O50: the last case of `PDEC`, with the header `HDEC` gives. -/
theorem pdecReadsFrame : Obligations.PdecReadsFrame := by
  intro s buf row hrow htag hlen
  obtain ⟨h, x, hhdec, hbdec, hv, _, hpdec⟩ := payloadDecode_ok_row hrow htag hlen
  exact ⟨h, _, x, (exec_hdec_ok_iff buf s h _).mpr hhdec, hbdec, hv, (exec_pdec_ok_iff buf s _ _).mpr hpdec⟩

/-- Rows are told apart by their tags, as variants are. -/
theorem vid_of_tag {row : RegistryRow} (hrow : row ∈ registry) {v : Variant} (htag : row.tag = variantTag v) :
    row.vid = v := by
  revert row
  cases v <;> decide

/-- `PDEC` answers a payload exactly when the buffer starts with the encodings of its header, tag and body. -/
theorem payloadDecode_ok_iff {buf : List Byte} {p : Payload} {vmis : Bool} : payloadDecode buf = .ok (p, vmis) ↔
    ∃ row ∈ registry, row.tag = payloadTyp p ∧ buf.getD 19 0 = row.tag ∧ 20 + row.w ≤ buf.length ∧
      vmis = versionMismatch p.header.version ∧ headerEncode p.header = .ok (memRead buf 0 19) ∧
      encfields (bodyDescriptors p.body) = .ok (memRead buf 20 row.w) := by
  constructor
  · intro h
    obtain ⟨_, herr⟩ | ⟨_, _, herr⟩ | ⟨_, _, _, _, _, herr⟩ | ⟨row, hrow, htag, hlen⟩ := payloadDecode_cases buf
    · cases herr.symm.trans h
    · cases herr.symm.trans h
    · cases herr.symm.trans h
    · obtain ⟨hd, x, hhdec, _, hv, hslots, hpdec⟩ := payloadDecode_ok_row hrow htag hlen
      cases hpdec.symm.trans h
      obtain ⟨hw, _, htyp⟩ := registry_row row hrow
      have hblen : (memRead buf 20 row.w).length = shapesWidth (bodyShapes (bodyVariant x)) := by
        rw [hv, memRead_length _ _ _ hlen, hw]
      exact ⟨row, hrow, by rw [payloadTyp, hv, htyp], htag, hlen, rfl, headerEncode_of_decode (by omega) hhdec,
        bodyEncode_of_slots hblen (by rw [hv, hslots])⟩
  · rintro ⟨row, hrow, htyp, htag, hlen, rfl, hhenc, hbenc⟩
    obtain ⟨hd, x, hhdec, hbdec, _, _, hpdec⟩ := payloadDecode_ok_row hrow htag hlen
    have hheader := hhdec.symm.trans (headerDecode_of_encode (by omega) hhenc)
    have hvid : row.vid = bodyVariant p.body := vid_of_tag hrow htyp
    have hbody := hbdec.symm.trans (hvid ▸ bodyDecode_of_encode hbenc)
    obtain ⟨rfl, _⟩ := Prod.mk.inj (Except.ok.inj hheader)
    obtain rfl := Except.ok.inj hbody
    exact hpdec

/-- Decoding an encoded payload is that payload (44_payload.md R165). -/
theorem payloadDecode_of_encode {p : Payload} {b : List Byte}
    (henc : payloadEncode p.header (payloadTyp p) (bodySlots p.body) = .ok b) :
    payloadDecode b = .ok (p, versionMismatch p.header.version) := by
  obtain ⟨hb, bb, hhenc, hbenc, rfl⟩ := (payloadEncode_ok_iff p b).mp henc
  have hhlen := headerEncode_length hhenc
  have hblen := bodyEncode_length hbenc
  obtain ⟨row, hrow, _, htag, hw, _⟩ := row_of_variant (bodyVariant p.body)
  have hbyte : (hb ++ [payloadTyp p] ++ bb).getD 19 0 = row.tag := by
    simp [List.getD_eq_getElem?_getD, hhlen, htag, payloadTyp]
  have hheader : memRead (hb ++ [payloadTyp p] ++ bb) 0 19 = hb := by
    simpa [hhlen] using memRead_middle [] hb ([payloadTyp p] ++ bb)
  have hbody : memRead (hb ++ [payloadTyp p] ++ bb) 20 row.w = bb := by
    simpa [hhlen, hblen, hw] using memRead_middle (hb ++ [payloadTyp p]) bb []
  have hlen : 20 + row.w ≤ (hb ++ [payloadTyp p] ++ bb).length := by
    simp [hhlen, hblen, hw]
    omega
  exact payloadDecode_ok_iff.mpr
    ⟨row, hrow, htag, hbyte, hlen, rfl, by rw [hheader, hhenc], by rw [hbody, hbenc]⟩

/-- Settles O51: a payload in range encodes, and its frame decodes to it. -/
theorem payloadRoundTrip : Obligations.PayloadRoundTrip := by
  rintro s p ⟨hheader, hbody⟩
  obtain ⟨hb, hhenc, _⟩ := headerEncode_ok hheader
  obtain ⟨bb, hbenc, _⟩ := bodyEncode_ok hbody
  have henc := (payloadEncode_ok_iff p _).mpr ⟨hb, bb, hhenc, hbenc, rfl⟩
  exact ⟨_, (exec_penc_payload_ok_iff p s _).mpr henc, (exec_pdec_ok_iff _ s p _).mpr (payloadDecode_of_encode henc)⟩

/-- A frame is its header, its tag and its body. -/
theorem take_frame {buf : List Byte} {w : Nat} (h : 20 + w ≤ buf.length) :
    memRead buf 0 19 ++ [buf.getD 19 0] ++ memRead buf 20 w = buf.take (20 + w) := by
  rw [← memRead_one buf 19 (by omega), memRead_split buf 0 19 1, memRead_split buf 0 20 w, memRead, List.drop_zero]

/-- Settles O52: the encodings of the decoded parts are the frame's own parts. -/
theorem payloadConverse : Obligations.PayloadConverse := by
  intro s b p vmis h
  obtain ⟨row, hrow, htyp, htag, hlen, _, hhenc, hbenc⟩ :=
    payloadDecode_ok_iff.mp ((exec_pdec_ok_iff b s p vmis).mp h)
  refine ⟨row, hrow, htyp, hlen, (exec_penc_payload_ok_iff p s _).mpr ((payloadEncode_ok_iff p _).mpr
    ⟨_, _, hhenc, hbenc, ?_⟩)⟩
  rw [← htyp, ← htag, take_frame hlen]

/-- Settles O53: both records are what their common frame decodes to. -/
theorem framesIdentifyPayloads : Obligations.FramesIdentifyPayloads := by
  intro s p q b hp hq
  rw [exec_penc_payload_ok_iff] at hp hq
  have hpq := (payloadDecode_of_encode hp).symm.trans (payloadDecode_of_encode hq)
  exact (Prod.mk.inj (Except.ok.inj hpq)).1

/-! ## Which bytes a decoder reads -/

/-- A header's decode is decided by its 19 bytes. -/
theorem headerDecode_append {buf : List Byte} (more : List Byte) {r : Header × Bool} (h : headerDecode buf = .ok r) :
    headerDecode (buf ++ more) = .ok r := by
  rcases Nat.lt_or_ge buf.length 19 with hshort | hlong
  · cases (headerDecode_short buf hshort).symm.trans h
  · have henc := headerEncode_of_decode (h := r.1) (vmis := r.2) hlong h
    rw [← memRead_append buf more 0 19 hlong] at henc
    obtain ⟨hd, hok, _⟩ := headerDecode_ok buf hlong
    cases hok.symm.trans h
    exact headerDecode_of_encode (by simp; omega) henc

/-- A body's decode is decided by the bytes of its variant's width. -/
theorem bodyDecode_append {v : Variant} {buf : List Byte} (more : List Byte) {x : Body} (h : bodyDecode v buf = .ok x) :
    bodyDecode v (buf ++ more) = .ok x := by
  rcases Nat.lt_or_ge buf.length (shapesWidth (bodyShapes v)) with hshort | hlong
  · cases (bodyDecode_short v buf hshort).symm.trans h
  · obtain ⟨y, hy, hyv, hys⟩ := bodyDecode_ok v buf hlong
    obtain ⟨z, hz, hzv, hzs⟩ := bodyDecode_ok v (buf ++ more) (by simp; omega)
    rw [memRead_append _ _ _ _ (by omega), ← hys] at hzs
    rw [hz, bodySlots_inj (hzv.trans hyv.symm) hzs, ← hy, h]

/-- A payload's decode is decided by the bytes of its frame. -/
theorem payloadDecode_append {buf : List Byte} (more : List Byte) {r : Payload × Bool} (h : payloadDecode buf = .ok r) :
    payloadDecode (buf ++ more) = .ok r := by
  obtain ⟨p, vmis⟩ := r
  obtain ⟨row, hrow, htyp, htag, hlen, hvmis, hhenc, hbenc⟩ := payloadDecode_ok_iff.mp h
  have hbyte : (buf ++ more).getD 19 0 = row.tag := by rw [List.getD_append _ _ _ _ (by omega), htag]
  rw [← memRead_append buf more _ _ (by omega)] at hhenc hbenc
  exact payloadDecode_ok_iff.mpr ⟨row, hrow, htyp, hbyte, by simp; omega, hvmis, hhenc, hbenc⟩

/-- The six decode operations: `PDEC`, `HDEC` and the four variants' decoders. -/
theorem anyDecoder_cases {mk : List Byte → Instr}
    (hmk : mk ∈ [Instr.hdec, .moveDec, .rgbDec, .locDec, .dataDec, .pdec]) :
    mk = .hdec ∨ (∃ v, mk = decInstr v) ∨ mk = .pdec := by
  obtain h | h : mk ∈ [Instr.hdec, .moveDec, .rgbDec, .locDec, .dataDec] ∨ mk = .pdec := by
    simpa only [List.mem_cons, List.not_mem_nil, or_false, or_assoc] using hmk
  · exact (decoder_cases h).imp_right .inl
  · exact .inr (.inr h)

/-- Settles O43: each decoder's outcome is kept by appended bytes. -/
theorem surplusBytesIgnored : Obligations.SurplusBytesIgnored := by
  intro s buf more r mk hmk h
  obtain rfl | ⟨v, rfl⟩ | rfl := anyDecoder_cases hmk
  · rw [exec_hdec, finish_ok_iff, except_map_eq_ok_iff] at h ⊢
    exact h.imp fun _ hp => ⟨headerDecode_append more hp.1, hp.2⟩
  · rw [exec_decInstr, finish_ok_iff, except_map_eq_ok_iff] at h ⊢
    exact h.imp fun _ hp => ⟨bodyDecode_append more hp.1, hp.2⟩
  · rw [exec_pdec, finish_ok_iff, except_map_eq_ok_iff] at h ⊢
    exact h.imp fun _ hp => ⟨payloadDecode_append more hp.1, hp.2⟩

/-- A decoder whose outcome on 60 bytes is not changed by bytes after them reads only the first 60 (D17). -/
theorem take_sixty_of_append {α : Type} {dec : List Byte → α}
    (h : ∀ buf more : List Byte, buf.length = 60 → dec (buf ++ more) = dec buf) (buf : List Byte) :
    dec (buf.take 60) = dec buf := by
  rcases Nat.le_total buf.length 60 with hshort | hlong
  · rw [List.take_of_length_le hshort]
  · rw [← h (buf.take 60) (buf.drop 60) (by simp [hlong]), List.take_append_drop]

theorem headerDecode_take_sixty : ∀ buf, headerDecode (buf.take 60) = headerDecode buf :=
  take_sixty_of_append fun buf more hlen => by
    obtain ⟨_, hok, _⟩ := headerDecode_ok buf (by omega)
    rw [headerDecode_append more hok, hok]

theorem bodyDecode_take_sixty (v : Variant) : ∀ buf, bodyDecode v (buf.take 60) = bodyDecode v buf :=
  take_sixty_of_append fun buf more hlen => by
    have hwidth : shapesWidth (bodyShapes v) ≤ 60 := by cases v <;> decide
    obtain ⟨_, hok, _⟩ := bodyDecode_ok v buf (by omega)
    rw [bodyDecode_append more hok, hok]

/-- On 60 bytes `PDEC` never truncates: it rejects the tag or answers a payload. -/
theorem payloadDecode_take_sixty : ∀ buf, payloadDecode (buf.take 60) = payloadDecode buf :=
  take_sixty_of_append fun buf more hlen => by
    obtain ⟨hshort, _⟩ | ⟨h20, h4, herr⟩ | ⟨row, hrow, _, _, hshort, _⟩ | ⟨row, hrow, htag, hlong⟩ :=
      payloadDecode_cases buf
    · omega
    · have hbyte : (buf ++ more).getD 19 0 = buf.getD 19 0 := List.getD_append _ _ _ _ (by omega)
      rw [herr, payloadDecode_unsupported (by simp; omega) (hbyte ▸ h4)]
    · have := registry_tag_width row hrow
      omega
    · obtain ⟨_, _, _, _, _, _, hok⟩ := payloadDecode_ok_row hrow htag hlong
      rw [payloadDecode_append more hok, hok]

/-- Settles O44: each decoder reads only 60 bytes. -/
theorem onlySixtyBytesMatter : Obligations.OnlySixtyBytesMatter := by
  intro s buf mk hmk
  obtain rfl | ⟨v, rfl⟩ | rfl := anyDecoder_cases hmk
  · rw [exec_hdec, exec_hdec, headerDecode_take_sixty]
  · rw [exec_decInstr, exec_decInstr, bodyDecode_take_sixty]
  · rw [exec_pdec, exec_pdec, payloadDecode_take_sixty]

end Sys2Proof.Machine
end

section
/-! Proofs about decoding and encoding (30_encoding.md) and about what a frame runs to. -/

namespace Sys2Proof.Machine

open Laws.TableMatch (HasSelect)

/-! ## Operation requests -/

/-- The select of an operation and the operation of a select are each other's inverse (30_encoding.md R72). -/
theorem opOfSelect_eq_iff (sel : BitVec 4) (o : Op) : opOfSelect sel = o ↔ sel = o.select := by
  revert sel; cases o <;> decide

theorem checked_ok_iff (i j : Instr) : checked i = .ok j ↔ i = j ∧ i.WellFormed := by
  unfold checked Instr.WellFormed
  cases i.violation <;> simp

theorem checked_of_wellFormed {i : Instr} (h : i.WellFormed) : checked i = .ok i :=
  (checked_ok_iff i i).mpr ⟨rfl, h⟩

theorem withSlots_ok_iff {α : Type} (slots : Option α) (mk : α → Instr) (i : Instr) :
    withSlots slots mk = .ok i ↔ ∃ a, slots = some a ∧ mk a = i := by
  cases slots <;> simp [withSlots]

/-- What an operation request decodes to lies in the operand domain, and its own encoding has the same select. -/
theorem decodeOp_ok {p : Ports} {i : Instr} (h : decodeOp p = .ok i) : i.WellFormed ∧ HasSelect (encode i) p.op := by
  cases ho : opOfSelect p.op <;> rw [(opOfSelect_eq_iff _ _).mp ho] <;>
    simp only [decodeOp, ho, checked_ok_iff, withSlots_ok_iff, Except.ok.injEq] at h
  case fenc => obtain ⟨rfl, hwf⟩ := h; exact ⟨hwf, _, rfl, rfl⟩
  case fdec => obtain ⟨rfl, hwf⟩ := h; exact ⟨hwf, _, rfl, rfl⟩
  case penc => obtain ⟨rfl, hwf⟩ := h; exact ⟨hwf, _, rfl, rfl⟩
  case moveFields => obtain ⟨_, _, rfl⟩ := h; exact ⟨rfl, _, rfl, rfl⟩
  case rgbFields => obtain ⟨_, _, rfl⟩ := h; exact ⟨rfl, _, rfl, rfl⟩
  case locFields => obtain ⟨_, _, rfl⟩ := h; exact ⟨rfl, _, rfl, rfl⟩
  case dataFields => obtain ⟨_, _, rfl⟩ := h; exact ⟨rfl, _, rfl, rfl⟩
  all_goals subst h; exact ⟨rfl, _, rfl, rfl⟩

theorem hasSelect_unique {r : Request} {a b : BitVec 4} (ha : HasSelect r a) (hb : HasSelect r b) : a = b := by
  obtain ⟨p, rfl, rfl⟩ := ha
  obtain ⟨q, hq, rfl⟩ := hb
  cases hq
  rfl

/-- Each select with the operands of `selectRequest` is an instruction. -/
theorem decode_selectRequest (sel : BitVec 4) :
    (selectRequest sel).op = sel ∧ (decode (.op (selectRequest sel))).isOk = true := by
  revert sel; decide

/-- Settles O19: every select has its request of log 6, and a decoded request has the select of its own encoding. -/
theorem selectsAssignedAndUnambiguous : Obligations.SelectsAssignedAndUnambiguous := by
  refine ⟨fun sel => ?_, fun p q i hp hq => hasSelect_unique (decodeOp_ok hp).2 (decodeOp_ok hq).2⟩
  obtain ⟨hop, hok⟩ := decode_selectRequest sel
  cases hi : decode (.op (selectRequest sel)) with
  | ok i => exact ⟨_, i, hop, hi⟩
  | error e => rw [hi] at hok; cases hok

/-! ## Frames -/

theorem tag_cases (tag : Byte) : 4 ≤ tag.toNat ∨ ∃ row ∈ registry, tag = row.tag := by
  obtain ⟨rfl, _⟩ | ⟨rfl, _⟩ | ⟨rfl, _⟩ | ⟨rfl, _⟩ | ⟨h4, _⟩ := registryLookup_cases tag
  exacts [.inr ⟨⟨0, 4, .move⟩, by decide⟩, .inr ⟨⟨1, 3, .rgb⟩, by decide⟩, .inr ⟨⟨2, 40, .data⟩, by decide⟩,
    .inr ⟨⟨3, 10, .loc⟩, by decide⟩, .inl h4]

theorem frameRowOf_row {row : RegistryRow} (hrow : row ∈ registry) :
    frameRowOf row.tag = some ⟨row.tag, 0xFF, row.vid, 20 + row.w⟩ := by
  revert row; decide

theorem frameRowOf_unsupported {tag : Byte} (h4 : 4 ≤ tag.toNat) : frameRowOf tag = none := by
  revert tag; decide

theorem decodeFrame_short {buf : List Byte} (h : buf.length < 20) :
    decodeFrame buf = .error (.frameError .truncatedBuffer) := by
  rw [decodeFrame_eq, if_pos h]

theorem decodeFrame_unsupported {buf : List Byte} (h : 20 ≤ buf.length) (h4 : 4 ≤ (buf.getD 19 0).toNat) :
    decodeFrame buf = .error (.frameError .unsupportedPayloadType) := by
  rw [decodeFrame_eq, if_neg (by omega), byteAt, frameRowOf_unsupported h4]

/-- A frame with a row's tag is read as that row's format, when it is long enough. -/
theorem decodeFrame_row {buf : List Byte} {row : RegistryRow} (hrow : row ∈ registry) (h : 20 ≤ buf.length)
    (htag : buf.getD 19 0 = row.tag) : decodeFrame buf =
      if buf.length < 20 + row.w then .error (.frameError .truncatedBuffer) else .ok (frameInstr row.vid buf) := by
  rw [decodeFrame_eq, if_neg (by omega), byteAt, htag, frameRowOf_row hrow]

theorem decodeFrame_ok_iff (buf : List Byte) (i : Instr) : decodeFrame buf = .ok i ↔
    ∃ row ∈ registry, buf.getD 19 0 = row.tag ∧ 20 + row.w ≤ buf.length ∧ frameInstr row.vid buf = i := by
  constructor
  · intro h
    rcases Nat.lt_or_ge buf.length 20 with hshort | h20
    · cases (decodeFrame_short hshort).symm.trans h
    · obtain h4 | ⟨row, hrow, htag⟩ := tag_cases (buf.getD 19 0)
      · cases (decodeFrame_unsupported h20 h4).symm.trans h
      · rw [decodeFrame_row hrow h20 htag] at h
        split at h
        · cases h
        · exact ⟨row, hrow, htag, by omega, Except.ok.inj h⟩
  · rintro ⟨row, hrow, htag, hlen, rfl⟩
    rw [decodeFrame_row hrow (by omega) htag, if_neg (by omega)]

/-- Settles O17: an operation by the check it passed, a frame because its fields have no domain but their widths. -/
theorem decodedIsWellFormed : Obligations.DecodedIsWellFormed := by
  rintro (p | buf) i h
  · exact (decodeOp_ok h).1
  · obtain ⟨row, _, _, _, rfl⟩ := (decodeFrame_ok_iff buf i).mp h
    exact frameInstr_violation row.vid buf

theorem memRead_bytes (buf : List Byte) (a n : Nat) (h : a + n ≤ buf.length) :
    memRead buf a n = (List.range n).map fun k => byteAt buf (a + k) := by
  induction n with
  | zero => exact memRead_zero buf a
  | succ n ih =>
    rw [← memRead_split buf a n 1, ih (by omega), memRead_one buf (a + n) (by omega), List.range_succ, List.map_append]
    rfl

/-- A frame's instruction is encoded to the frame's header, tag and body. -/
theorem encode_frameInstr {row : RegistryRow} (hrow : row ∈ registry) {buf : List Byte}
    (hlen : 20 + row.w ≤ buf.length) : encode (frameInstr row.vid buf) =
      .frame (memRead buf 0 19 ++ [row.tag] ++ memRead buf 20 row.w) := by
  have hheader := frameHeaderBytes_frameHeader buf (by omega)
  have hrec (a : Nat) (h : a + 10 ≤ buf.length) := frameLocationBytes_frameLocation buf a h
  rw [registry_eq] at hrow
  simp only [List.mem_cons, List.not_mem_nil, or_false] at hrow
  obtain rfl | rfl | rfl | rfl := hrow <;> simp only at hlen ⊢
  · rw [frameInstr_eq]
    refine (encode_fMove _ _ _ _ _).trans ?_
    rw [hheader, memRead_bytes buf 20 4 (by omega), List.append_assoc]
    rfl
  · rw [frameInstr_eq]
    refine (encode_fRgb _ _ _ _).trans ?_
    rw [hheader, memRead_bytes buf 20 3 (by omega), List.append_assoc]
    rfl
  · rw [frameInstr_eq]
    refine (encode_fData _ _ _ _ _ _ _ _).trans ?_
    rw [hrec 20 (by omega), hrec 30 (by omega), hrec 40 (by omega), hrec 50 (by omega), memRead_split buf 40 10 10,
      memRead_split buf 30 10 20, memRead_split buf 20 10 30]
    exact congrArg (fun hb => Request.frame (hb ++ [0x02] ++ memRead buf 20 40)) hheader
  · rw [frameInstr_eq]
    refine (encode_fLoc _ _).trans ?_
    rw [hheader, hrec 20 (by omega)]

/-- Settles O18: header, tag and body of the frame are its first `20 + w` bytes. -/
theorem encodeOfDecodedFrame : Obligations.EncodeOfDecodedFrame := by
  intro buf i h
  obtain ⟨row, hrow, htag, hlen, rfl⟩ := (decodeFrame_ok_iff buf i).mp h
  exact ⟨row, hrow, htag.symm, hlen, by rw [encode_frameInstr hrow hlen, ← htag, take_frame hlen]⟩

/-- The bytes after a frame's header. -/
theorem byteAt_frame (h : FrameHeader) (rest : List Byte) (k : Nat) :
    byteAt (frameHeaderBytes h ++ rest) (19 + k) = byteAt rest k := by
  rw [byteAt, List.getD_append_right _ _ _ _ (by rw [frameHeaderBytes_length]; omega), frameHeaderBytes_length,
    Nat.add_sub_cancel_left, byteAt]

/-- A location record of a frame comes back from its bytes, at the offset they stand at. -/
theorem frameLocation_at {buf pre post : List Byte} {a : Nat} (l : FrameLocation)
    (hbuf : buf = pre ++ (frameLocationBytes l ++ post)) (ha : pre.length = a) : frameLocation buf a = l := by
  rw [hbuf, ← ha, frameLocation_bytes]

/-- Four location records come back from the body they make up (30_encoding.md R65). -/
theorem frameLocations_bytes {pre : List Byte} (hpre : pre.length = 20) (l0 l1 l2 l3 : FrameLocation) :
    let buf := pre ++ (frameLocationBytes l0 ++ (frameLocationBytes l1 ++
      (frameLocationBytes l2 ++ frameLocationBytes l3)))
    frameLocation buf 20 = l0 ∧ frameLocation buf 30 = l1 ∧ frameLocation buf 40 = l2 ∧ frameLocation buf 50 = l3 := by
  intro buf
  have h1 : buf = pre ++ frameLocationBytes l0 ++
      (frameLocationBytes l1 ++ (frameLocationBytes l2 ++ frameLocationBytes l3)) := by
    simp only [buf, List.append_assoc]
  have h2 : buf = pre ++ frameLocationBytes l0 ++ frameLocationBytes l1 ++
      (frameLocationBytes l2 ++ frameLocationBytes l3) := by
    simp only [buf, List.append_assoc]
  have h3 : buf = pre ++ frameLocationBytes l0 ++ frameLocationBytes l1 ++ frameLocationBytes l2 ++
      (frameLocationBytes l3 ++ []) := by
    simp only [buf, List.append_assoc, List.append_nil]
  have hlen := frameLocationBytes_length
  exact ⟨frameLocation_at l0 rfl hpre, frameLocation_at l1 h1 (by simp [hpre, hlen]),
    frameLocation_at l2 h2 (by simp [hpre, hlen]), frameLocation_at l3 h3 (by simp [hpre, hlen])⟩

theorem decode_encode_fMove (h : FrameHeader) (a b c d : BitVec 8) :
    decode (encode (.fMove h a b c d)) = .ok (.fMove h a b c d) := by
  rw [encode_fMove]
  refine (decodeFrame_ok_iff _ _).mpr ⟨⟨0, 4, .move⟩, by decide, byteAt_frame h _ 0,
    by simp [frameHeaderBytes_length], ?_⟩
  rw [frameInstr_eq, frameHeader_bytes]
  simp only [byteAt_frame h _ 1, byteAt_frame h _ 2, byteAt_frame h _ 3, byteAt_frame h _ 4]
  rfl

theorem decode_encode_fRgb (h : FrameHeader) (r g b : BitVec 8) :
    decode (encode (.fRgb h r g b)) = .ok (.fRgb h r g b) := by
  rw [encode_fRgb]
  refine (decodeFrame_ok_iff _ _).mpr ⟨⟨1, 3, .rgb⟩, by decide, byteAt_frame h _ 0,
    by simp [frameHeaderBytes_length], ?_⟩
  rw [frameInstr_eq, frameHeader_bytes]
  simp only [byteAt_frame h _ 1, byteAt_frame h _ 2, byteAt_frame h _ 3]
  rfl

theorem decode_encode_fData (d s : BitVec 64) (w : BitVec 16) (v : BitVec 8) (l0 l1 l2 l3 : FrameLocation) :
    decode (encode (.fData d s w v #v[l0, l1, l2, l3])) = .ok (.fData d s w v #v[l0, l1, l2, l3]) := by
  rw [encode_fData]
  refine (decodeFrame_ok_iff _ _).mpr ⟨⟨2, 40, .data⟩, by decide, ?_,
    by simp [frameHeaderBytes_length, frameLocationBytes_length], ?_⟩
  · rw [List.append_assoc]
    exact byteAt_frame _ _ 0
  · obtain ⟨h0, h1, h2, h3⟩ := frameLocations_bytes (pre := frameHeaderBytes ⟨d, s, w, v⟩ ++ [0x02])
      (by simp [frameHeaderBytes_length]) l0 l1 l2 l3
    rw [frameInstr_eq, h0, h1, h2, h3, List.append_assoc, frameHeader_bytes]

theorem decode_encode_fLoc (h : FrameHeader) (l : FrameLocation) :
    decode (encode (.fLoc h l)) = .ok (.fLoc h l) := by
  rw [encode_fLoc]
  refine (decodeFrame_ok_iff _ _).mpr ⟨⟨3, 10, .loc⟩, by decide, ?_,
    by simp [frameHeaderBytes_length, frameLocationBytes_length], ?_⟩
  · rw [List.append_assoc]
    exact byteAt_frame _ _ 0
  · rw [frameInstr_eq, frameLocation_at (post := []) l (by rw [List.append_nil]) (by simp [frameHeaderBytes_length]),
      List.append_assoc, frameHeader_bytes]

/-! ## Decoding what was encoded -/

/-- A length in the operand domain is carried by the 4-bit port. -/
theorem lengthPort_toNat {n : Nat} (h : lengthOk n = true) : (BitVec.ofNat 4 n).toNat = n := by
  rw [lengthOk_iff] at h
  rw [BitVec.toNat_ofNat, Nat.mod_eq_of_lt (by omega)]

theorem fenc_wellFormed_iff (v : Int) (n : Nat) (e : Endian) (g : Bool) :
    (Instr.fenc v n e g).WellFormed ↔ lengthOk n = true := by
  simp [Instr.WellFormed, Instr.violation]

theorem fdec_wellFormed_iff (b : List Byte) (n : Nat) (e : Endian) (g : Bool) :
    (Instr.fdec b n e g).WellFormed ↔ lengthOk n = true ∧ b.length = n := by
  cases hn : lengthOk n <;> simp [Instr.WellFormed, Instr.violation, hn]

theorem penc_wellFormed_iff (h : Header) (typ : Byte) (x : List Int) :
    (Instr.penc h typ x).WellFormed ↔ slotsOk typ x = true := by
  simp [Instr.WellFormed, Instr.violation]

theorem decode_encode_fenc {v : Int} {n : Nat} {e : Endian} {g : Bool} (h : (Instr.fenc v n e g).WellFormed) :
    decode (encode (.fenc v n e g)) = .ok (.fenc v n e g) := by
  have hn := lengthPort_toNat ((fenc_wellFormed_iff v n e g).mp h)
  obtain ⟨he, hg⟩ := ports_round e g
  change checked (.fenc v (BitVec.ofNat 4 n).toNat (endianOfPort e.port) (signedOfPort (signedPort g))) = _
  rw [hn, he, hg, checked_of_wellFormed h]

theorem decode_encode_fdec {b : List Byte} {n : Nat} {e : Endian} {g : Bool} (h : (Instr.fdec b n e g).WellFormed) :
    decode (encode (.fdec b n e g)) = .ok (.fdec b n e g) := by
  have hn := lengthPort_toNat ((fdec_wellFormed_iff b n e g).mp h).1
  obtain ⟨he, hg⟩ := ports_round e g
  change checked (.fdec b (BitVec.ofNat 4 n).toNat (endianOfPort e.port) (signedOfPort (signedPort g))) = _
  rw [hn, he, hg, checked_of_wellFormed h]

theorem decode_encode_dataFields (d : Lh2RawData) : decode (encode (.dataFields d)) = .ok (.dataFields d) := by
  change withSlots (dataOfSlots (dataSlots d)) .dataFields = _
  rw [dataOfSlots_dataSlots, withSlots]

/-- Settles O16: frames by their fields, the converter's operations by their ports, data slots by their records; the
other operations are carried by ports of their operands' own types. -/
theorem decodeEncodeRoundTrip : Obligations.DecodeEncodeRoundTrip := by
  intro i h
  cases i
  case fMove hd a b c d => exact decode_encode_fMove hd a b c d
  case fRgb hd r g b => exact decode_encode_fRgb hd r g b
  case fData d s w v locs =>
    obtain ⟨l0, l1, l2, l3, rfl⟩ := records_cases locs
    exact decode_encode_fData d s w v l0 l1 l2 l3
  case fLoc hd l => exact decode_encode_fLoc hd l
  case fenc => exact decode_encode_fenc h
  case fdec => exact decode_encode_fdec h
  case dataFields d => exact decode_encode_dataFields d
  case penc => exact checked_of_wellFormed h
  all_goals rfl

/-- Settles O20: the words are decoded. -/
theorem specWordsDecode : Obligations.SpecWordsDecode := by
  unfold Obligations.SpecWordsDecode
  decide

/-! ## What a frame runs to -/

/-- The outcome of a frame, its header and flag by value (30_encoding.md R69, 41_header.md R115). -/
theorem finishFrame_eq (h : FrameHeader) (x : Body) (s : State) : finishFrame h x s =
    finish (.ok (.payload ⟨⟨h.destination.toNat, h.source.toNat, h.swarmId.toNat, h.version.toNat⟩, x⟩
      (decide (h.version ≠ 1)))) s := by
  rw [finishFrame, ← versionMismatch_byte]
  rfl

theorem locationOfFrame_eq (l : FrameLocation) :
    locationOfFrame l = ⟨l.bits.toNat, l.polynomialIndex.toNat, l.offset.toInt⟩ := by
  rw [locationOfFrame, signedField_byte]
  rfl

/-- Settles O22: a frame's outcome by value, and its signed bytes as two's complement. -/
theorem frameFormatsComplete : Obligations.FrameFormatsComplete := by
  intro s h
  refine ⟨fun a b c d => ?move, fun r g b => ?rgb, fun l0 l1 l2 l3 => ?data, fun l => ?loc⟩
  case move =>
    rw [exec, execFMove, finishFrame_eq, signedField_byte, signedField_byte, signedField_byte, signedField_byte]
    rfl
  case rgb =>
    rw [exec, execFRgb, finishFrame_eq]
    rfl
  case data =>
    rw [exec, execFData, finishFrame_eq, mapEach_four]
    simp only [locationOfFrame_eq]
    rfl
  case loc =>
    rw [exec, execFLoc, finishFrame_eq, locationOfFrame_eq]
    rfl

end Sys2Proof.Machine
end

section
/-! Proofs about the step, the requests it answers and the requests it refuses (60_exceptions.md sections 1 and 3). -/

namespace Sys2Proof.Machine

/-! ## One step -/

theorem step_of_decode_ok {r : Request} {i : Instr} (h : decode r = .ok i) (rest : List Request)
    (old : List Response) : step { requests := r :: rest, responses := old } = exec i ⟨rest, old⟩ := by
  simp only [step, takeRequest_cons, h]

theorem step_of_decode_error {r : Request} {e : Reject} (h : decode r = .error e) (rest : List Request)
    (old : List Response) : step { requests := r :: rest, responses := old } = rejectRequest e ⟨rest, old⟩ := by
  simp only [step, takeRequest_cons, h]

/-- Settles O1: the oldest request is the head of the list. -/
theorem stepRunsDecodedInstruction : Obligations.StepRunsDecodedInstruction := by
  rintro ⟨requests, responses⟩ r rest i rfl h
  exact step_of_decode_ok h rest responses

/-- Settles O2: a frame's rejection raises its kind. -/
theorem stepAnswersUnreadableFrame : Obligations.StepAnswersUnreadableFrame := by
  rintro ⟨requests, responses⟩ buf rest k rfl h
  exact step_of_decode_error h rest responses

/-- Settles O4: there is no request to take. -/
theorem stepWithoutRequestWaits : Obligations.StepWithoutRequestWaits := by
  rintro ⟨requests, responses⟩ rfl
  simp only [step, takeRequest_nil]

theorem decodeTableWord_eq_some_iff (nbits w : Nat) (i : Instr) :
    decodeTableWord nbits w = some i ↔ decode (tableRequest nbits w) = .ok i := by
  unfold decodeTableWord
  cases decode (tableRequest nbits w) <;> simp

/-- Settles O5: the table word's request is the head of the list. -/
theorem fetchWordIsRunNext : Obligations.FetchWordIsRunNext := fun s nbits w i h =>
  step_of_decode_ok ((decodeTableWord_eq_some_iff nbits w i).mp h) s.requests s.responses

/-- Settles O6: the fields of the reset state. -/
theorem resetHoldsNoTransaction : Obligations.ResetHoldsNoTransaction := ⟨rfl, rfl⟩

/-! ## Requests outside the operand domain -/

theorem step_refuses {s : State} {p : Ports} {rest : List Request} (d : DomainViolation)
    (hs : s.requests = .op p :: rest) (h : decodeOp p = .error (.outOfDomain d)) :
    step s = .refused (refusalOf d) := by
  obtain ⟨requests, responses⟩ := s
  subst hs
  exact step_of_decode_error (r := .op p) h rest responses

theorem checked_of_violation {i : Instr} {d : DomainViolation} (h : i.violation = some d) :
    checked i = .error (.outOfDomain d) := by
  rw [checked, h]

theorem decodeOp_fenc {p : Ports} (h : p.op = 0x0) : decodeOp p =
    checked (.fenc p.value p.length.toNat (endianOfPort p.endian) (signedOfPort p.sgn)) := by
  rw [decodeOp, (opOfSelect_eq_iff p.op .fenc).mpr h]

theorem decodeOp_fdec {p : Ports} (h : p.op = 0x1) : decodeOp p =
    checked (.fdec p.buf p.length.toNat (endianOfPort p.endian) (signedOfPort p.sgn)) := by
  rw [decodeOp, (opOfSelect_eq_iff p.op .fdec).mpr h]

theorem decodeOp_moveFields {p : Ports} (h : p.op = 0x6) :
    decodeOp p = withSlots (moveOfSlots p.x) .moveFields := by
  rw [decodeOp, (opOfSelect_eq_iff p.op .moveFields).mpr h]

theorem decodeOp_rgbFields {p : Ports} (h : p.op = 0x7) : decodeOp p = withSlots (rgbOfSlots p.x) .rgbFields := by
  rw [decodeOp, (opOfSelect_eq_iff p.op .rgbFields).mpr h]

theorem decodeOp_locFields {p : Ports} (h : p.op = 0x8) : decodeOp p = withSlots (locOfSlots p.x) .locFields := by
  rw [decodeOp, (opOfSelect_eq_iff p.op .locFields).mpr h]

theorem decodeOp_dataFields {p : Ports} (h : p.op = 0x9) :
    decodeOp p = withSlots (dataOfSlots p.x) .dataFields := by
  rw [decodeOp, (opOfSelect_eq_iff p.op .dataFields).mpr h]

theorem decodeOp_penc {p : Ports} (h : p.op = 0xE) : decodeOp p = checked (.penc p.h p.typ p.x) := by
  rw [decodeOp, (opOfSelect_eq_iff p.op .penc).mpr h]

/-! A slot list stands for a record exactly when it has the variant's count (10_state.md R22). -/

theorem moveOfSlots_eq_none_iff (x : List Int) : moveOfSlots x = none ↔ x.length ≠ 4 := by
  unfold moveOfSlots
  split
  · simp
  · next hx => exact iff_of_true rfl fun hlen => match x, hlen with | [a, b, c, d], _ => hx a b c d rfl

theorem rgbOfSlots_eq_none_iff (x : List Int) : rgbOfSlots x = none ↔ x.length ≠ 3 := by
  unfold rgbOfSlots
  split
  · simp
  · next hx => exact iff_of_true rfl fun hlen => match x, hlen with | [a, b, c], _ => hx a b c rfl

theorem locOfSlots_eq_none_iff (x : List Int) : locOfSlots x = none ↔ x.length ≠ 3 := by
  unfold locOfSlots
  split
  · simp
  · next hx => exact iff_of_true rfl fun hlen => match x, hlen with | [a, b, c], _ => hx a b c rfl

theorem dataOfSlots_eq_none_iff (x : List Int) : dataOfSlots x = none ↔ x.length ≠ 12 := by
  have hdef : dataOfSlots x = if x.length = 12 then some ⟨tabulate 4 (slotRecord x)⟩ else none := rfl
  rw [hdef]
  split <;> simp [*]

theorem withSlots_none {α : Type} (mk : α → Instr) : withSlots none mk = .error (.outOfDomain .slotCount) := rfl

theorem fenc_violation {v : Int} {n : Nat} {e : Endian} {g : Bool} (h : n = 0 ∨ 8 < n) :
    (Instr.fenc v n e g).violation = some .fieldLength := by
  have hbad : ¬ lengthOk n = true := by rw [lengthOk_iff]; omega
  rw [Instr.violation, if_neg hbad]

theorem fdec_violation_length {b : List Byte} {n : Nat} {e : Endian} {g : Bool} (h : n = 0 ∨ 8 < n) :
    (Instr.fdec b n e g).violation = some .fieldLength := by
  have hbad : ¬ lengthOk n = true := by rw [lengthOk_iff]; omega
  rw [Instr.violation, if_neg hbad]

theorem fdec_violation_count {b : List Byte} {n : Nat} {e : Endian} {g : Bool} (h1 : 1 ≤ n) (h8 : n ≤ 8)
    (hb : b.length ≠ n) : (Instr.fdec b n e g).violation = some .byteCount := by
  rw [Instr.violation, if_pos ((lengthOk_iff n).mpr ⟨h1, h8⟩), if_neg hb]

theorem penc_violation {h : Header} {typ : Byte} {x : List Int} (hx : ¬ slotsOk typ x = true) :
    (Instr.penc h typ x).violation = some .slotCount := by
  rw [Instr.violation, if_neg hx]

/-- The slot counts that `PENC` refuses, tag by tag. -/
theorem not_slotsOk {typ : Byte} {x : List Int} (h : typ = 0 ∧ x.length ≠ 4 ∨ typ = 1 ∧ x.length ≠ 3 ∨
    typ = 2 ∧ x.length ≠ 12 ∨ typ = 3 ∧ x.length ≠ 3) : ¬ slotsOk typ x = true := by
  rw [slotsOk_iff]
  rintro ⟨h0, h1, h2, h3⟩
  obtain ⟨ht, hx⟩ | ⟨ht, hx⟩ | ⟨ht, hx⟩ | ⟨ht, hx⟩ := h
  exacts [hx (h0 ht), hx (h1 ht), hx (h2 ht), hx (h3 ht)]

/-- Settles O3: the decoding of each select, and the violation its operands have. -/
theorem stepRefusesOutOfDomain : Obligations.StepRefusesOutOfDomain := by
  intro s p rest hs
  refine ⟨fun hop hn => step_refuses .fieldLength hs ?length,
    fun hop h1 h8 hb => step_refuses .byteCount hs ?count,
    fun hop hx => step_refuses .slotCount hs ?move, fun hop hx => step_refuses .slotCount hs ?rgb,
    fun hop hx => step_refuses .slotCount hs ?loc, fun hop hx => step_refuses .slotCount hs ?data,
    fun hop hx => step_refuses .slotCount hs ?penc⟩
  case length =>
    obtain hop | hop := hop
    · rw [decodeOp_fenc hop, checked_of_violation (fenc_violation hn)]
    · rw [decodeOp_fdec hop, checked_of_violation (fdec_violation_length hn)]
  case count => rw [decodeOp_fdec hop, checked_of_violation (fdec_violation_count h1 h8 hb)]
  case move => rw [decodeOp_moveFields hop, (moveOfSlots_eq_none_iff p.x).mpr hx, withSlots_none]
  case rgb => rw [decodeOp_rgbFields hop, (rgbOfSlots_eq_none_iff p.x).mpr hx, withSlots_none]
  case loc => rw [decodeOp_locFields hop, (locOfSlots_eq_none_iff p.x).mpr hx, withSlots_none]
  case data => rw [decodeOp_dataFields hop, (dataOfSlots_eq_none_iff p.x).mpr hx, withSlots_none]
  case penc => rw [decodeOp_penc hop, checked_of_violation (penc_violation (not_slotsOk hx))]

/-! ## Requests that are answered -/

/-- An accepted request is answered by one response, whatever else the machine holds (20_memory.md R54). -/
theorem step_accepted {r : Request} (h : RequestAccepted r) : ∃ q, ∀ (rest : List Request) (old : List Response),
    step { requests := r :: rest, responses := old } = .next { requests := rest, responses := old ++ [q] } := by
  cases hd : decode r with
  | ok i =>
    obtain ⟨⟨q, hq⟩, _⟩ | ⟨d, hbad, _⟩ := exec_cases i
    · exact ⟨q, fun rest old => by rw [step_of_decode_ok hd, hq, deliver]⟩
    · cases (decodedIsWellFormed r i hd).symm.trans hbad
  | error e =>
    cases e with
    | frameError k => exact ⟨.error k, fun rest old => by rw [step_of_decode_error hd, rejectRequest]; rfl⟩
    | outOfDomain d => exact absurd hd (h d)

theorem requestAccepted_of_decode_ok {r : Request} {i : Instr} (h : decode r = .ok i) : RequestAccepted r :=
  fun _ hd => nomatch h.symm.trans hd

/-- A raw frame is an instruction or an error kind, never outside the domain (44_payload.md R163). -/
theorem frame_accepted (buf : List Byte) : RequestAccepted (.frame buf) := by
  intro d hd
  change decodeFrame buf = _ at hd
  rcases Nat.lt_or_ge buf.length 20 with hshort | h20
  · cases (decodeFrame_short hshort).symm.trans hd
  · obtain h4 | ⟨row, hrow, htag⟩ := tag_cases (buf.getD 19 0)
    · cases (decodeFrame_unsupported h20 h4).symm.trans hd
    · rw [decodeFrame_row hrow h20 htag] at hd
      split at hd <;> cases hd

theorem withSlots_ok {α : Type} {slots : Option α} (mk : α → Instr) (h : slots ≠ none) :
    ∃ i, withSlots slots mk = .ok i := by
  obtain ⟨a, rfl⟩ := Option.ne_none_iff_exists'.mp h
  exact ⟨mk a, rfl⟩

/-- The operand domain on the ports is what decodes (60_exceptions.md R192). -/
theorem decodeOp_of_inDomain {p : Ports} (h : PortsInDomain p) : ∃ i, decodeOp p = .ok i := by
  obtain ⟨hlen, hcount, hmove, hrgb, hloc, hdata, hpenc⟩ := h
  cases ho : opOfSelect p.op <;> have hop := (opOfSelect_eq_iff _ _).mp ho
  case fenc =>
    rw [decodeOp_fenc hop]
    exact ⟨_, checked_of_wellFormed ((fenc_wellFormed_iff _ _ _ _).mpr ((lengthOk_iff _).mpr (hlen (.inl hop))))⟩
  case fdec =>
    rw [decodeOp_fdec hop]
    exact ⟨_, checked_of_wellFormed ((fdec_wellFormed_iff _ _ _ _).mpr
      ⟨(lengthOk_iff _).mpr (hlen (.inr hop)), hcount hop⟩)⟩
  case moveFields =>
    rw [decodeOp_moveFields hop]
    exact withSlots_ok _ fun hnone => (moveOfSlots_eq_none_iff p.x).mp hnone (hmove hop)
  case rgbFields =>
    rw [decodeOp_rgbFields hop]
    exact withSlots_ok _ fun hnone => (rgbOfSlots_eq_none_iff p.x).mp hnone (hrgb hop)
  case locFields =>
    rw [decodeOp_locFields hop]
    exact withSlots_ok _ fun hnone => (locOfSlots_eq_none_iff p.x).mp hnone (hloc hop)
  case dataFields =>
    rw [decodeOp_dataFields hop]
    exact withSlots_ok _ fun hnone => (dataOfSlots_eq_none_iff p.x).mp hnone (hdata hop)
  case penc =>
    rw [decodeOp_penc hop]
    exact ⟨_, checked_of_wellFormed ((penc_wellFormed_iff _ _ _).mpr ((slotsOk_iff _ _).mpr (hpenc hop)))⟩
  all_goals exact ⟨_, by rw [decodeOp, ho]⟩

theorem step_answers {s : State} {r : Request} {rest : List Request} (hs : s.requests = r :: rest)
    (h : RequestAccepted r) : ∃ q, step s = .next { requests := rest, responses := s.responses ++ [q] } := by
  obtain ⟨requests, responses⟩ := s
  subst hs
  exact (step_accepted h).imp fun q hq => hq rest responses

/-- Settles O54: ports in the domain decode, and what is accepted is answered. -/
theorem stepAnswersRequestsInDomain : Obligations.StepAnswersRequestsInDomain := by
  refine ⟨fun s p rest hs hp => ?_, fun s buf rest hs => step_answers hs (frame_accepted buf)⟩
  obtain ⟨i, hi⟩ := decodeOp_of_inDomain hp
  exact step_answers hs (requestAccepted_of_decode_ok (r := .op p) hi)

/-! ## Ports that a select does not name -/

/-- Decoding reads the ports of the select's row only (30_encoding.md R73). -/
theorem decodeOp_congr {p q : Ports} (h : AgreeOnNamedPorts p q) : decodeOp p = decodeOp q := by
  obtain ⟨hop, hconv, hvalue, hbuf, hh, htag, htyp, hx⟩ := h
  cases ho : opOfSelect p.op <;> rw [(opOfSelect_eq_iff _ _).mp ho] at hconv hvalue hbuf hh htag htyp hx <;>
    have hoq := hop ▸ ho <;> simp only [decodeOp, ho, hoq]
  case fenc =>
    obtain ⟨hlength, hendian, hsgn⟩ := hconv (.inl rfl)
    rw [hvalue rfl, hlength, hendian, hsgn]
  case fdec =>
    obtain ⟨hlength, hendian, hsgn⟩ := hconv (.inr rfl)
    rw [hbuf (by decide), hlength, hendian, hsgn]
  case penc => rw [hh (by decide), htyp rfl, hx (by decide)]
  case lookup => rw [htag rfl]
  case hfields => rw [hh (by decide)]
  case henc => rw [hh (by decide)]
  case moveFields => rw [hx (by decide)]
  case rgbFields => rw [hx (by decide)]
  case locFields => rw [hx (by decide)]
  case dataFields => rw [hx (by decide)]
  all_goals rw [hbuf (by decide)]

/-- Settles O55: a step looks at a request only through its decoding. -/
theorem unnamedPortsAreIgnored : Obligations.UnnamedPortsAreIgnored := by
  intro p q h
  have hdecode : decode (.op p) = decode (.op q) := decodeOp_congr h
  refine ⟨hdecode, fun s => ?_⟩
  cases hq : decode (.op q) with
  | ok i => rw [step_of_decode_ok (hdecode.trans hq), step_of_decode_ok hq]
  | error e => rw [step_of_decode_error (hdecode.trans hq), step_of_decode_error hq]

/-! ## A frame request is PDEC -/

/-- The body of a frame's field patterns (30_encoding.md R63 to R66, R69). -/
def frameBody : Variant → List Byte → Body
  | .move, buf => .move ⟨(byteAt buf 20).toInt, (byteAt buf 21).toInt, (byteAt buf 22).toInt, (byteAt buf 23).toInt⟩
  | .rgb, buf => .rgb ⟨(byteAt buf 20).toNat, (byteAt buf 21).toNat, (byteAt buf 22).toNat⟩
  | .data, buf => .data ⟨#v[locationOfFrame (frameLocation buf 20), locationOfFrame (frameLocation buf 30),
      locationOfFrame (frameLocation buf 40), locationOfFrame (frameLocation buf 50)]⟩
  | .loc, buf => .loc (locationOfFrame (frameLocation buf 20))

theorem exec_frameInstr (v : Variant) (buf : List Byte) (s : State) :
    exec (frameInstr v buf) s = finishFrame (frameHeader buf) (frameBody v buf) s := by
  rw [frameInstr_eq]
  cases v with
  | move => simp only [exec, execFMove, signedField_byte, frameBody]
  | rgb => rfl
  | data => rfl
  | loc => rfl

theorem memRead_getD (buf : List Byte) (a n k : Nat) (h : k < n) : (memRead buf a n).getD k 0 = byteAt buf (a + k) := by
  simp [memRead, byteAt, List.getD_eq_getElem?_getD, List.getElem?_take_of_lt h]

/-- The body decoder on a frame's slice gives the body of its field patterns. -/
theorem bodyDecode_frame {row : RegistryRow} (hrow : row ∈ registry) {buf : List Byte}
    (hlen : 20 + row.w ≤ buf.length) : bodyDecode row.vid (memRead buf 20 row.w) = .ok (frameBody row.vid buf) := by
  have hslice := memRead_length buf 20 row.w hlen
  rw [registry_eq] at hrow
  simp only [List.mem_cons, List.not_mem_nil, or_false] at hrow
  obtain rfl | rfl | rfl | rfl := hrow <;> simp only at hlen hslice ⊢
  · rw [bodyDecode_move_bytes hslice.ge]
    simp (disch := omega) only [memRead_getD, frameBody]
  · rw [bodyDecode_rgb_bytes hslice.ge]
    simp (disch := omega) only [memRead_getD, frameBody]
  · rw [bodyDecode, dataDecode_eq, if_neg (by omega)]
    simp (disch := omega) only [chunkRecord_frame, frameBody, Except.map]
  · rw [bodyDecode_loc hslice.ge, memRead_whole hslice, locRecord_frame buf 20 hlen, frameBody]

/-- Running a frame's instruction is running `PDEC` on its bytes (10_state.md R33). -/
theorem exec_frameInstr_eq_pdec {row : RegistryRow} (hrow : row ∈ registry) {buf : List Byte}
    (htag : buf.getD 19 0 = row.tag) (hlen : 20 + row.w ≤ buf.length) (s : State) :
    exec (frameInstr row.vid buf) s = exec (.pdec buf) s := by
  obtain ⟨hd, x, hhdec, hbdec, _, _, hpdec⟩ := payloadDecode_ok_row hrow htag hlen
  obtain ⟨rfl, _⟩ := Prod.mk.inj (Except.ok.inj ((headerDecode_frame buf (by omega)).symm.trans hhdec))
  obtain rfl := Except.ok.inj ((bodyDecode_frame hrow hlen).symm.trans hbdec)
  rw [exec_frameInstr, exec_pdec, hpdec, finishFrame, Except.map]

/-- Settles O21: the three tests of a frame's decoding are those of `PDEC`, and past them the two run alike. -/
theorem frameRequestActsAsPdec : Obligations.FrameRequestActsAsPdec := by
  intro s buf
  have hpdec : step { s with requests := .op { op := 0xF, buf := buf } :: s.requests } = exec (.pdec buf) s :=
    step_of_decode_ok rfl s.requests s.responses
  rw [hpdec]
  have hreject {k : ErrorKind} (hframe : decodeFrame buf = .error (.frameError k))
      (hpayload : payloadDecode buf = .error k) :
      step { s with requests := .frame buf :: s.requests } = exec (.pdec buf) s := by
    rw [step_of_decode_error (r := .frame buf) hframe, (exec_pdec_error_iff buf s k).mpr hpayload]
    rfl
  obtain ⟨hshort, herr⟩ | ⟨h20, h4, herr⟩ | ⟨row, hrow, h20, htag, hshort, herr⟩ | ⟨row, hrow, htag, hlen⟩ :=
    payloadDecode_cases buf
  · exact hreject (decodeFrame_short hshort) herr
  · exact hreject (decodeFrame_unsupported h20 h4) herr
  · exact hreject (by rw [decodeFrame_row hrow h20 htag, if_pos hshort]) herr
  · have hframe := (decodeFrame_ok_iff buf _).mpr ⟨row, hrow, htag, hlen, rfl⟩
    rw [step_of_decode_ok (r := .frame buf) hframe]
    exact exec_frameInstr_eq_pdec hrow htag hlen s

end Sys2Proof.Machine
end

section
/-! Proofs about whole transactions and runs (10_state.md R20, R28; 20_memory.md R54; 60_exceptions.md R188, R189). -/

namespace Sys2Proof.Machine

/-! ## One instruction -/

/-- Settles O9: `exec_cases`, whose answer is a delivery. -/
theorem execOnlyAddsOneResponse : Obligations.ExecOnlyAddsOneResponse := by
  intro i s t h
  obtain ⟨⟨r, hr⟩, _⟩ | ⟨_, _, hrefused⟩ := exec_cases i
  · obtain rfl := Host.Outcome.next.inj ((hr s).symm.trans h)
    exact ⟨deliver_requests r s, r, deliver_responses r s⟩
  · cases (hrefused s).symm.trans h

/-- Settles O10: neither the answer nor the refusal of `exec_cases` names the state. -/
theorem responseDependsOnRequestAlone : Obligations.ResponseDependsOnRequestAlone := fun i =>
  (exec_cases i).imp (fun h => h.1) fun ⟨d, _, hrefused⟩ => ⟨refusalOf d, hrefused⟩

/-- Settles O11: the two cases of `exec_cases` are the domain and its violations. -/
theorem execCompletesExactlyOnDomain : Obligations.ExecCompletesExactlyOnDomain := by
  intro i s
  obtain ⟨⟨r, hr⟩, hwf⟩ | ⟨d, hd, hrefused⟩ := exec_cases i
  · simp [hr s, hwf, Instr.WellFormed]
  · have hnext : ¬ ∃ t, exec i s = .next t := by simp [hrefused s]
    have hname (d' : DomainViolation) (h : i.violation = some d') : exec i s = .refused (refusalOf d') := by
      obtain rfl := Option.some.inj (hd.symm.trans h)
      exact hrefused s
    exact ⟨iff_of_false hnext (by simp [Instr.WellFormed, hd]), hname .fieldLength, hname .byteCount,
      hname .slotCount⟩

/-! ## Runs -/

theorem run_succ {M : Host.Core} {s s' : M.State} (k : Nat) (h : M.step s = .next s') :
    M.run (k + 1) s = M.run k s' := by
  rw [Host.Core.run, h]

/-- A run over accepted requests answers them one by one (60_exceptions.md R189). -/
theorem run_accepted {respond : Request → Response}
    (hstep : ∀ r, RequestAccepted r → ∀ rest old, step { requests := r :: rest, responses := old } =
      .next { requests := rest, responses := old ++ [respond r] })
    (rs later : List Request) (old : List Response) (h : ∀ r ∈ rs, RequestAccepted r) :
    core.run rs.length ({ requests := rs ++ later, responses := old } : State) =
      .next ({ requests := later, responses := old ++ rs.map respond } : State) := by
  induction rs generalizing old with
  | nil => simp [Host.Core.run]
  | cons r rs ih =>
    have hfirst : core.step ({ requests := r :: (rs ++ later), responses := old } : State) =
        .next ({ requests := rs ++ later, responses := old ++ [respond r] } : State) :=
      hstep r (h r (by simp)) (rs ++ later) old
    have hrest := ih (old ++ [respond r]) fun r' hr' => h r' (by simp [hr'])
    rw [List.append_assoc] at hrest
    exact (run_succ rs.length hfirst).trans hrest

theorem exists_respond : ∃ respond : Request → Response, ∀ r, RequestAccepted r → ∀ rest old,
    step { requests := r :: rest, responses := old } =
      .next { requests := rest, responses := old ++ [respond r] } := by
  have hall (r : Request) : ∃ q, RequestAccepted r → ∀ rest old,
      step { requests := r :: rest, responses := old } = .next { requests := rest, responses := old ++ [q] } := by
    by_cases h : RequestAccepted r
    · exact (step_accepted h).imp fun _ hq _ => hq
    · exact ⟨.error .fieldOverflow, fun hr => absurd hr h⟩
  exact ⟨fun r => (hall r).choose, fun r => (hall r).choose_spec⟩

/-- Settles O12: the answer of each request is chosen once, and a run goes through the list. -/
theorem runAnswersEachRequestAlone : Obligations.RunAnswersEachRequestAlone := by
  obtain ⟨respond, hstep⟩ := exists_respond
  exact ⟨respond, fun r hr => hstep r hr [] [], run_accepted hstep⟩

theorem zip_map_self {α β : Type} (f : α → β) (l : List α) : l.zip (l.map f) = l.map fun a => (a, f a) :=
  (List.zip_of_prod (by simp [Function.comp_def]) (by simp [Function.comp_def])).symm

/-- Settles O13: each request is paired with its own answer, in either order. -/
theorem runOrderIsImmaterial : Obligations.RunOrderIsImmaterial := by
  intro rs rs' hperm h
  obtain ⟨respond, hstep⟩ := exists_respond
  have hrun (l : List Request) (hl : ∀ r ∈ l, RequestAccepted r) :
      core.run l.length ({ requests := l, responses := [] } : State) =
        .next ({ requests := [], responses := l.map respond } : State) := by
    simpa using run_accepted hstep l [] [] hl
  refine ⟨rs.map respond, rs'.map respond, hrun rs h, hrun rs' fun r hr => h r (hperm.mem_iff.mpr hr),
    List.length_map _, List.length_map _, ?_⟩
  rw [zip_map_self, zip_map_self]
  exact hperm.map _

/-! ## Soundness of responses -/

/-- Settles O7: no response is delivered at reset. -/
theorem resetResponsesSound : Obligations.ResetResponsesSound := fun _ h => nomatch h

/-- What a step can do: wait, or take a request and add the answer of its instruction or its error kind. -/
theorem step_next_cases {s t : State} (h : step s = .next t) : t = s ∨
    ∃ r, t.responses = s.responses ++ [r] ∧
      ((∃ (i : Instr) (s' : State), exec i s' = .next (deliver r s')) ∨ ∃ k, r = .error k) := by
  obtain ⟨requests, responses⟩ := s
  cases requests with
  | nil =>
    rw [stepWithoutRequestWaits _ rfl] at h
    exact .inl (Host.Outcome.next.inj h).symm
  | cons req rest =>
    cases hd : decode req with
    | ok i =>
      rw [step_of_decode_ok hd] at h
      obtain ⟨⟨r, hr⟩, _⟩ | ⟨_, _, hrefused⟩ := exec_cases i
      · obtain rfl := Host.Outcome.next.inj ((hr _).symm.trans h)
        exact .inr ⟨r, rfl, .inl ⟨i, ⟨rest, responses⟩, hr _⟩⟩
      · cases (hrefused _).symm.trans h
    | error e =>
      rw [step_of_decode_error hd] at h
      cases e with
      | frameError k =>
        obtain rfl := Host.Outcome.next.inj h
        exact .inr ⟨.error k, rfl, .inr ⟨k, rfl⟩⟩
      | outOfDomain d => cases h

theorem headerInRange_of_encode {h : Header} {b : List Byte} (henc : headerEncode h = .ok b) : HeaderInRange h := by
  by_contra hr
  cases (headerEncode_overflow hr).symm.trans henc

theorem bodyInRange_of_encode {x : Body} {b : List Byte} (henc : encfields (bodyDescriptors x) = .ok b) :
    BodyInRange x := by
  obtain ⟨hfits, _⟩ | ⟨_, herr⟩ := encfields_cases (bodyDescriptors x)
  · exact (bodyInRange_iff x).mpr hfits
  · cases herr.symm.trans henc

/-- A decoded header is in range, and its flag is right (10_state.md R31, 41_header.md R115). -/
theorem headerDecode_sound {buf : List Byte} {h : Header} {vmis : Bool} (hdec : headerDecode buf = .ok (h, vmis)) :
    HeaderInRange h ∧ (vmis = true ↔ h.version ≠ 1) := by
  rcases Nat.lt_or_ge buf.length 19 with hshort | hlong
  · cases (headerDecode_short buf hshort).symm.trans hdec
  · have hr := headerInRange_of_encode (headerEncode_of_decode hlong hdec)
    obtain ⟨_, hok, _⟩ := headerDecode_ok buf hlong
    cases hok.symm.trans hdec
    exact ⟨hr, decide_eq_true_iff⟩

/-- A decoded body is in range (10_state.md R31). -/
theorem bodyDecode_inRange {v : Variant} {buf : List Byte} {x : Body} (hdec : bodyDecode v buf = .ok x) :
    BodyInRange x := by
  rcases Nat.lt_or_ge buf.length (shapesWidth (bodyShapes v)) with hshort | hlong
  · cases (bodyDecode_short v buf hshort).symm.trans hdec
  · obtain ⟨y, hok, hv, hslots⟩ := bodyDecode_ok v buf hlong
    obtain rfl := Except.ok.inj (hok.symm.trans hdec)
    subst hv
    exact bodyInRange_of_encode (bodyEncode_of_slots (memRead_length _ _ _ (by omega)) hslots)

/-- A decoded payload is in range, and its flag is right. -/
theorem payloadDecode_sound {buf : List Byte} {p : Payload} {vmis : Bool} (hdec : payloadDecode buf = .ok (p, vmis)) :
    PayloadInRange p ∧ (vmis = true ↔ p.header.version ≠ 1) := by
  obtain ⟨_, _, _, _, _, rfl, hhenc, hbenc⟩ := payloadDecode_ok_iff.mp hdec
  exact ⟨⟨headerInRange_of_encode hhenc, bodyInRange_of_encode hbenc⟩, decide_eq_true_iff⟩

/-- Descriptors of a slot list have the shapes of their list (10_state.md R27). -/
theorem describeAll_shapes {ds : List FieldShape} {xs : List Int} (h : ds.length = xs.length) :
    (describeAll ds xs).map shapeOf = ds := by
  induction ds generalizing xs with
  | nil => rfl
  | cons d ds ih =>
    cases xs with
    | nil => simp at h
    | cons x xs => exact congrArg (d :: ·) (ih (Nat.succ.inj h))

/-- The descriptors of any body are those of a hardwired list. -/
theorem bodyDescriptors_sound (x : Body) : ResponseSound (.ok (.descriptors (bodyDescriptors x))) := by
  have hshapes : (bodyDescriptors x).map shapeOf = bodyShapes (bodyVariant x) := by
    rw [bodyDescriptors_eq, describeAll_shapes (bodySlots_length x).symm]
  change (bodyDescriptors x).map shapeOf ∈ _
  rw [hshapes]
  cases x <;> simp [bodyVariant, bodyShapes]

/-- An integer that fits one to eight bytes fits eight (40_field_converter.md R93). -/
theorem valueFits_eight {v : Int} {n : Nat} {g : Bool} (h1 : 1 ≤ n) (h8 : n ≤ 8) (h : ValueFits v n g) :
    -(2 ^ 63) ≤ v ∧ v < 2 ^ 64 := by
  have hfull : (2 : Int) ^ (8 * n) ≤ 2 ^ 64 := pow_le_pow_right₀ (by norm_num) (by omega)
  have hhalf : (2 : Int) ^ (8 * n - 1) ≤ 2 ^ 63 := pow_le_pow_right₀ (by norm_num) (by omega)
  cases g with
  | false =>
    simp only [ValueFits, Bool.false_eq_true, if_false] at h
    omega
  | true =>
    simp only [ValueFits, if_true] at h
    omega

/-- `PENC`'s bytes are as many as its tag's frame (30_encoding.md R68). -/
theorem payloadEncode_sound {h : Header} {typ : Byte} {x : List Int} {b : List Byte} (hx : slotsOk typ x = true)
    (henc : payloadEncode h typ x = .ok b) : b.length ∈ [23, 24, 30, 60] := by
  rcases Nat.lt_or_ge typ.toNat 4 with hlt | h4
  · obtain ⟨y, rfl, rfl⟩ := slots_body hx hlt
    obtain ⟨hb, bb, hhenc, hbenc, rfl⟩ := (payloadEncode_ok_iff ⟨h, y⟩ b).mp henc
    have hlen : (hb ++ [payloadTyp ⟨h, y⟩] ++ bb).length = 20 + shapesWidth (bodyShapes (bodyVariant y)) := by
      simp [headerEncode_length hhenc, bodyEncode_length hbenc]
      omega
    rw [hlen]
    cases bodyVariant y <;> decide
  · cases (payloadEncode_unsupported h typ x h4).symm.trans henc

theorem registry_sound {row : RegistryRow} (hrow : row ∈ registry) :
    (row.w, row.vid) ∈ [(4, Variant.move), (3, .rgb), (40, .data), (10, .loc)] := by
  revert row; decide

/-- A response is sound when the outcome it was finished with is. -/
theorem finish_sound {o : Except ErrorKind Result} {s : State} {r : Response} (h : finish o s = .next (deliver r s))
    (ho : ∀ x, o = .ok x → ResponseSound (.ok x)) : ResponseSound r := by
  rw [finish_eq] at h
  obtain rfl := deliver_injective (Host.Outcome.next.inj h)
  cases o with
  | ok x => exact ho x rfl
  | error k => trivial

/-- The same for an outcome of a codec function. -/
theorem finish_map_sound {α : Type} {o : Except ErrorKind α} {f : α → Result} {s : State} {r : Response}
    (h : finish (o.map f) s = .next (deliver r s)) (ho : ∀ a, o = .ok a → ResponseSound (.ok (f a))) :
    ResponseSound r := by
  refine finish_sound h fun x hx => ?_
  obtain ⟨a, ha, rfl⟩ := (except_map_eq_ok_iff f o x).mp hx
  exact ho a ha

theorem exec_pdec_sound {buf : List Byte} {s : State} {r : Response}
    (h : exec (.pdec buf) s = .next (deliver r s)) : ResponseSound r :=
  finish_map_sound ((exec_pdec buf s).symm.trans h) fun _ hp => payloadDecode_sound hp

theorem exec_decInstr_sound {v : Variant} {buf : List Byte} {s : State} {r : Response}
    (h : exec (decInstr v buf) s = .next (deliver r s)) : ResponseSound r :=
  finish_map_sound ((exec_decInstr v buf s).symm.trans h) fun _ hx => bodyDecode_inRange hx

/-- A `FIELDS` operation answers its body's descriptors. -/
theorem fieldsOp_sound (x : Body) {s : State} {r : Response}
    (h : finish (.ok (.descriptors (bodyDescriptors x))) s = .next (deliver r s)) : ResponseSound r :=
  finish_sound h fun _ hx => Except.ok.inj hx ▸ bodyDescriptors_sound x

/-- A frame's instruction answers what `PDEC` answers on its bytes. -/
theorem exec_frame_sound {buf : List Byte} {i : Instr} (hd : decode (.frame buf) = .ok i) {s : State} {r : Response}
    (h : exec i s = .next (deliver r s)) : ResponseSound r := by
  obtain ⟨row, hrow, htag, hlen, rfl⟩ := (decodeFrame_ok_iff buf i).mp hd
  exact exec_pdec_sound (exec_frameInstr_eq_pdec hrow htag hlen s ▸ h)

/-- Whatever an instruction answers is sound. -/
theorem exec_sound {i : Instr} {s : State} {r : Response} (h : exec i s = .next (deliver r s)) : ResponseSound r := by
  have hwf : i.WellFormed := (execCompletesExactlyOnDomain i s).1.mp ⟨_, h⟩
  cases i
  case fMove hd a b c d => exact exec_frame_sound (decode_encode_fMove hd a b c d) h
  case fRgb hd r g b => exact exec_frame_sound (decode_encode_fRgb hd r g b) h
  case fData d s w v locs =>
    obtain ⟨l0, l1, l2, l3, rfl⟩ := records_cases locs
    exact exec_frame_sound (decode_encode_fData d s w v l0 l1 l2 l3) h
  case fLoc hd l => exact exec_frame_sound (decode_encode_fLoc hd l) h
  case fenc v n e g =>
    obtain ⟨h1, h8⟩ := (lengthOk_iff n).mp ((fenc_wellFormed_iff v n e g).mp hwf)
    rw [exec_fenc v e g s h1 h8] at h
    refine finish_map_sound h fun b hb => ?_
    have hlen := (fdec_of_fenc h1 hb).1
    simp only [ResponseSound, List.mem_cons]
    omega
  case fdec b n e g =>
    obtain ⟨hn, hb⟩ := (fdec_wellFormed_iff b n e g).mp hwf
    obtain ⟨h1, h8⟩ := (lengthOk_iff n).mp hn
    rw [exec_fdec e g s h1 h8 hb] at h
    refine finish_sound h fun x hx => ?_
    obtain rfl := Except.ok.inj hx
    exact valueFits_eight h1 h8 (fdec_fits b n e g h1 hb)
  case hfields hd =>
    rw [exec_hfields, ← finish_ok] at h
    refine finish_sound h fun x hx => ?_
    obtain rfl := Except.ok.inj hx
    have hshapes : (headerFields hd).map shapeOf = headerShapes := describeAll_shapes rfl
    simp [ResponseSound, hshapes]
  case henc hd =>
    rw [exec_henc] at h
    refine finish_map_sound h fun b hb => ?_
    simp [ResponseSound, headerEncode_length hb]
  case hdec buf => exact finish_map_sound ((exec_hdec buf s).symm.trans h) fun _ hp => headerDecode_sound hp
  case lookup tag =>
    exact finish_map_sound ((exec_lookup tag s).symm.trans h) fun _ hrow => registry_sound (registryLookup_ok hrow).1
  case moveFields m => exact fieldsOp_sound (.move m) h
  case rgbFields c => exact fieldsOp_sound (.rgb c) h
  case locFields l => exact fieldsOp_sound (.loc l) h
  case dataFields d => exact fieldsOp_sound (.data d) h
  case moveDec buf => exact exec_decInstr_sound (v := .move) h
  case rgbDec buf => exact exec_decInstr_sound (v := .rgb) h
  case locDec buf => exact exec_decInstr_sound (v := .loc) h
  case dataDec buf => exact exec_decInstr_sound (v := .data) h
  case penc hd typ x =>
    have hslots := (penc_wellFormed_iff hd typ x).mp hwf
    rw [exec_penc hd s hslots] at h
    refine finish_map_sound h fun b hb => ?_
    have hlen := payloadEncode_sound hslots hb
    simp only [ResponseSound, List.mem_cons, List.not_mem_nil, or_false] at hlen ⊢
    omega
  case pdec buf => exact exec_pdec_sound h

/-- Settles O8: a step adds at most one response, and `exec_sound` says that it is sound. -/
theorem stepKeepsResponsesSound : Obligations.StepKeepsResponsesSound := by
  intro s t hs h
  obtain rfl | ⟨r, hresponses, hr⟩ := step_next_cases h
  · exact hs
  · have hsound : ResponseSound r := by
      obtain ⟨i, s', hexec⟩ | ⟨k, rfl⟩ := hr
      · exact exec_sound hexec
      · trivial
    intro q hq
    rw [hresponses, List.mem_append, List.mem_singleton] at hq
    obtain hq | rfl := hq
    · exact hs q hq
    · exact hsound

end Sys2Proof.Machine
end

section
/-! Proofs about the error table and the output codes (60_exceptions.md sections 1 and 2, 10_state.md R26). -/

namespace Sys2Proof.Machine

/-! ## When each codec function fails, and with which kind -/

theorem fenc_error_iff (v : Int) (n : Nat) (e : Endian) (g : Bool) (k : ErrorKind) :
    fenc v n e g = .error k ↔ k = .fieldOverflow ∧ ¬ ValueFits v n g := by
  obtain ⟨hfits, b, hb, _⟩ | ⟨hnot, herr⟩ := fenc_cases v n e g
  · simp [hb, hfits]
  · simp [herr, hnot, eq_comm]

theorem headerEncode_error_iff (h : Header) (k : ErrorKind) :
    headerEncode h = .error k ↔ k = .fieldOverflow ∧ ¬ HeaderInRange h := by
  by_cases hr : HeaderInRange h
  · obtain ⟨b, hb, _⟩ := headerEncode_ok hr
    simp [hb, hr]
  · simp [headerEncode_overflow hr, hr, eq_comm]

theorem headerDecode_error_iff (buf : List Byte) (k : ErrorKind) :
    headerDecode buf = .error k ↔ k = .truncatedBuffer ∧ buf.length < 19 := by
  rcases Nat.lt_or_ge buf.length 19 with hshort | hlong
  · simp [headerDecode_short buf hshort, hshort, eq_comm]
  · simp [headerDecode_bytes hlong, hlong]

theorem bodyDecode_error_iff (v : Variant) (buf : List Byte) (k : ErrorKind) :
    bodyDecode v buf = .error k ↔ k = .truncatedBuffer ∧ buf.length < shapesWidth (bodyShapes v) := by
  rcases Nat.lt_or_ge buf.length (shapesWidth (bodyShapes v)) with hshort | hlong
  · simp [bodyDecode_short v buf hshort, hshort, eq_comm]
  · obtain ⟨_, hok, _⟩ := bodyDecode_ok v buf hlong
    simp [hok, hlong]

theorem registry_tag_lt {row : RegistryRow} (h : row ∈ registry) : row.tag.toNat < 4 := by
  revert row; decide

theorem registryLookup_error_iff (tag : Byte) (k : ErrorKind) :
    registryLookup tag = .error k ↔ k = .unsupportedPayloadType ∧ 4 ≤ tag.toNat := by
  obtain h4 | ⟨row, hrow, rfl⟩ := tag_cases tag
  · simp [registryLookup_unsupported h4, h4, eq_comm]
  · obtain ⟨_, hok, _⟩ := registry_row row hrow
    simp [hok, registry_tag_lt hrow]

/-- `PENC` of a payload record fails exactly when a value is out of range. -/
theorem payloadEncode_error_iff (p : Payload) (k : ErrorKind) :
    payloadEncode p.header (payloadTyp p) (bodySlots p.body) = .error k ↔ k = .fieldOverflow ∧ ¬ PayloadInRange p := by
  rw [payloadEncode_eq, PayloadInRange]
  by_cases hheader : HeaderInRange p.header
  · obtain ⟨hb, hhenc, _⟩ := headerEncode_ok hheader
    obtain ⟨hfits, bb, hbenc, _⟩ | ⟨⟨f, hf, hnot⟩, herr⟩ := encfields_cases (bodyDescriptors p.body)
    · simp [hhenc, hbenc, hheader, (bodyInRange_iff p.body).mpr hfits, Except.bind, Except.map]
    · have hbody : ¬ BodyInRange p.body := fun hr => hnot ((bodyInRange_iff p.body).mp hr f hf)
      simp [hhenc, herr, hbody, Except.bind, Except.map, eq_comm]
  · simp [headerEncode_overflow hheader, hheader, Except.bind, eq_comm]

theorem registry_tag_inj {row row' : RegistryRow} (h : row ∈ registry) (h' : row' ∈ registry)
    (htag : row.tag = row'.tag) : row = row' := by
  obtain ⟨_, hl, _⟩ := registry_row row h
  obtain ⟨_, hl', _⟩ := registry_row row' h'
  rw [htag] at hl
  exact Except.ok.inj (hl.symm.trans hl')

/-- A body cut short, row by row. -/
theorem shortBody_iff (buf : List Byte) : (∃ row ∈ registry, buf.getD 19 0 = row.tag ∧ buf.length < 20 + row.w) ↔
    buf.getD 19 0 = 0 ∧ buf.length < 24 ∨ buf.getD 19 0 = 1 ∧ buf.length < 23 ∨
      buf.getD 19 0 = 2 ∧ buf.length < 60 ∨ buf.getD 19 0 = 3 ∧ buf.length < 30 := by
  simp only [registry_eq, List.mem_cons, List.not_mem_nil, or_false, or_and_right, exists_or, exists_eq_left]

/-- The causes of `PDEC`'s errors are its three tests (60_exceptions.md R184, R186). -/
theorem payloadDecode_error_iff (buf : List Byte) (k : ErrorKind) : payloadDecode buf = .error k ↔
    k = .truncatedBuffer ∧ (buf.length < 20 ∨
      20 ≤ buf.length ∧ ∃ row ∈ registry, buf.getD 19 0 = row.tag ∧ buf.length < 20 + row.w) ∨
    k = .unsupportedPayloadType ∧ 20 ≤ buf.length ∧ 4 ≤ (buf.getD 19 0).toNat := by
  obtain ⟨hshort, herr⟩ | ⟨h20, h4, herr⟩ | ⟨row, hrow, h20, htag, hshort, herr⟩ | ⟨row, hrow, htag, hlen⟩ :=
    payloadDecode_cases buf
  · have h20 : ¬ 20 ≤ buf.length := by omega
    simp [herr, hshort, h20, eq_comm]
  · have hshort : ¬ buf.length < 20 := by omega
    have hnone : ¬ ∃ row ∈ registry, buf.getD 19 0 = row.tag ∧ buf.length < 20 + row.w := by
      rintro ⟨row, hrow, htag, _⟩
      have := registry_tag_lt hrow
      rw [← htag] at this
      omega
    simp only [herr, hshort, h20, h4, hnone, and_false, or_false, and_true, false_or, Except.error.injEq,
      @eq_comm _ _ k]
  · have h4 : ¬ 4 ≤ (buf.getD 19 0).toNat := by
      rw [htag, not_le]
      exact registry_tag_lt hrow
    have hsome : ∃ row ∈ registry, buf.getD 19 0 = row.tag ∧ buf.length < 20 + row.w := ⟨row, hrow, htag, hshort⟩
    simp only [herr, h20, h4, hsome, and_false, or_false, and_true, or_true, Except.error.injEq, @eq_comm _ _ k]
  · have hshort : ¬ buf.length < 20 := by omega
    have h4 : ¬ 4 ≤ (buf.getD 19 0).toNat := by
      rw [htag, not_le]
      exact registry_tag_lt hrow
    have hnone : ¬ ∃ row ∈ registry, buf.getD 19 0 = row.tag ∧ buf.length < 20 + row.w := by
      rintro ⟨row', hrow', htag', hshort'⟩
      obtain rfl := registry_tag_inj hrow hrow' (htag.symm.trans htag')
      omega
    obtain ⟨_, _, _, _, _, _, hok⟩ := payloadDecode_ok_row hrow htag hlen
    simp only [hok, hshort, h4, hnone, and_false, or_false, reduceCtorEq]

/-! ## The error table -/

/-- What `PENC` calls out of range, for slots that are a body's (60_exceptions.md R184). -/
theorem payloadInRange_iff (h : Header) (x : Body) : PayloadInRange ⟨h, x⟩ ↔ HeaderInRange h ∧
    ∃ y, bodySlots y = bodySlots x ∧ payloadTyp ⟨h, y⟩ = payloadTyp ⟨h, x⟩ ∧ BodyInRange y := by
  refine and_congr_right fun _ => ⟨fun hx => ⟨x, rfl, rfl, hx⟩, ?_⟩
  rintro ⟨y, hslots, htyp, hy⟩
  have hv : bodyVariant y = bodyVariant x := by
    revert htyp
    simp only [payloadTyp]
    cases bodyVariant y <;> cases bodyVariant x <;> decide
  rwa [bodySlots_inj hv hslots] at hy

/-- `PENC`'s two cells: the tag, and with a valid tag the ranges (60_exceptions.md R184, R187). -/
theorem penc_error_iff {h : Header} {typ : Byte} {x : List Int} (hx : slotsOk typ x = true) (s : State)
    (k : ErrorKind) : exec (.penc h typ x) s = .next { s with responses := s.responses ++ [.error k] } ↔
      ErrorCause (.penc h typ x) k := by
  rw [exec_penc h s hx, finish_err_iff, except_map_eq_error_iff]
  rcases Nat.lt_or_ge typ.toNat 4 with hlt | h4
  · obtain ⟨y, rfl, rfl⟩ := slots_body hx hlt
    refine (payloadEncode_error_iff ⟨h, y⟩ k).trans ?_
    rw [payloadInRange_iff]
    cases k <;> simp [ErrorCause, hlt]
    rfl
  · rw [payloadEncode_unsupported h typ x h4]
    cases k <;> simp [ErrorCause, h4]

/-- A body decoder's only cell is a buffer below its variant's width. -/
theorem errorCause_decInstr (v : Variant) (buf : List Byte) (k : ErrorKind) :
    ErrorCause (decInstr v buf) k ↔ k = .truncatedBuffer ∧ buf.length < shapesWidth (bodyShapes v) := by
  cases k with
  | truncatedBuffer => cases v <;> exact (and_iff_right rfl).symm
  | unsupportedPayloadType => cases v <;> exact iff_of_false id fun h => nomatch h.1
  | fieldOverflow => cases v <;> exact iff_of_false id fun h => nomatch h.1

theorem decInstr_error_iff (v : Variant) (buf : List Byte) (s : State) (k : ErrorKind) :
    exec (decInstr v buf) s = .next { s with responses := s.responses ++ [.error k] } ↔
      ErrorCause (decInstr v buf) k := by
  rw [exec_decInstr_error_iff, bodyDecode_error_iff, errorCause_decInstr]

/-- What always has a result raises no error. -/
theorem no_error_of_finish_ok {i : Instr} {s : State} {x : Result} (hi : exec i s = finish (.ok x) s) (k : ErrorKind) :
    ¬ exec i s = .next { s with responses := s.responses ++ [.error k] } := by
  rw [hi, finish_err_iff]
  exact fun h => nomatch h

/-- Settles O14: each operation's function fails under its cell's cause; what does not fail has blank cells. -/
theorem errorsFollowTheTable : Obligations.ErrorsFollowTheTable := by
  intro i s k hwf
  cases i
  case fenc v n e g =>
    obtain ⟨h1, h8⟩ := (lengthOk_iff n).mp ((fenc_wellFormed_iff v n e g).mp hwf)
    rw [exec_fenc v e g s h1 h8, finish_err_iff, except_map_eq_error_iff, fenc_error_iff]
    cases k <;> simp [ErrorCause]
  case fdec b n e g =>
    obtain ⟨hn, hb⟩ := (fdec_wellFormed_iff b n e g).mp hwf
    obtain ⟨h1, h8⟩ := (lengthOk_iff n).mp hn
    rw [exec_fdec e g s h1 h8 hb, finish_err_iff]
    simp [ErrorCause]
  case henc h =>
    rw [exec_henc_error_iff, headerEncode_error_iff]
    cases k <;> simp [ErrorCause]
  case hdec buf =>
    rw [exec_hdec_error_iff, headerDecode_error_iff]
    cases k <;> simp [ErrorCause]
  case lookup tag =>
    rw [exec_lookup_error_iff, registryLookup_error_iff]
    cases k <;> simp [ErrorCause]
  case moveDec buf => exact decInstr_error_iff .move buf s k
  case rgbDec buf => exact decInstr_error_iff .rgb buf s k
  case locDec buf => exact decInstr_error_iff .loc buf s k
  case dataDec buf => exact decInstr_error_iff .data buf s k
  case penc h typ x => exact penc_error_iff ((penc_wellFormed_iff h typ x).mp hwf) s k
  case pdec buf =>
    rw [exec_pdec_error_iff, payloadDecode_error_iff, shortBody_iff]
    cases k <;> simp [ErrorCause]
  all_goals exact iff_of_false (no_error_of_finish_ok rfl k) id

/-! ## Output codes -/

theorem statusPort_eq_zero_iff (r : Response) : statusPort r = 0 ↔ ∃ x, r = .ok x := by
  cases r with
  | ok x => simp [statusPort]
  | error k => cases k <;> simp [statusPort, errorStatus]

theorem vmisPort_eq_none {x : Result} (hheader : ∀ h vmis, x ≠ .header h vmis)
    (hpayload : ∀ p vmis, x ≠ .payload p vmis) : vmisPort (.ok x) = none := by
  cases x with
  | header h vmis => exact absurd rfl (hheader h vmis)
  | payload p vmis => exact absurd rfl (hpayload p vmis)
  | _ => rfl

theorem widthPort_toNat {row : RegistryRow} (hrow : row ∈ registry) : (widthPort row.w).toNat = row.w := by
  revert row; decide

/-- Settles O15: the codes of each kind of response, and the registry's widths in six bits. -/
theorem statusCodesOfResponses : Obligations.StatusCodesOfResponses :=
  ⟨statusPort_eq_zero_iff, rfl, rfl, rfl, fun _ _ => rfl, fun _ _ => rfl, fun _ => vmisPort_eq_none, fun _ => rfl,
    rfl, rfl, rfl, rfl, fun _ => widthPort_toNat⟩

end Sys2Proof.Machine
end
